-- ==== Sys2Proof/Word.lean ====
section
/-!
DEFINITION. The bit vectors of PQ-CODEC. Every value is unsigned (00_scope.md R10); the value datapath and the
lane vector are 64 bits wide (R8, R11); bundles have the widths of 30_encoding.md R60 and R66.
-/

namespace Sys2Proof

/-- One byte of a buffer, one lane (R11). -/
abbrev Byte := BitVec 8

/-- A 64-bit integer operand or result (R8). -/
abbrev Word := BitVec 64

/-- An 8-byte lane vector: lane `k` is bits `63-8k` down to `56-8k`, lane 0 most significant (R11). -/
abbrev LaneVec := BitVec 64

/-- The 4-bit operation selector `op` (R60). -/
abbrev OpField := BitVec 4

/-- A 4-bit length field, of a request or of a response (R60, R66). -/
abbrev LenField := BitVec 4

/-- A request bundle `REQ[135:0]` (R60). -/
abbrev ReqBundle := BitVec 136

/-- A response bundle `RSP[134:0]` (R66). -/
abbrev RspBundle := BitVec 135

end Sys2Proof
end

