-- ==== Sys2Proof/Syntax.lean ====
section
/-!
DEFINITION. The syntax: requests as instructions, the lines of the spec's assembler, and what stands on the input pins.
-/

namespace Sys2Proof

/-- The three operand fields of a request bundle (30_encoding.md R60). Every operation carries all of them: the bits
that R62 marks as not read are kept, so that "they never affect the response" (R64) is a fact about the meanings. -/
structure Operands where
  len   : LenField
  val   : Word
  bytes : LaneVec
  deriving DecidableEq, Repr

/-- The nine operations of 30_encoding.md R61, one constructor per row of opcode_table.json, each with the operand
fields of its request. -/
inductive Instr where
  | fenc16 (o : Operands)
  | fenc32 (o : Operands)
  | fenc64 (o : Operands)
  | fdec16 (o : Operands)
  | fdec32 (o : Operands)
  | fdec64 (o : Operands)
  | venc (o : Operands)
  | vdec (o : Operands)
  | vcanon (o : Operands)
  deriving DecidableEq, Repr

/-- What the decoder reads from a bundle: an operation, or a rejection that names the reserved selector (R68). -/
inductive Decoded where
  | instr (i : Instr)
  | reservedOp (op : OpField)
  deriving DecidableEq, Repr

/-- The first word of an assembler line (R76): a mnemonic, or `RSVD op=<hex>` for tests of R68. -/
inductive AsmOp where
  | fenc16 | fenc32 | fenc64 | fdec16 | fdec32 | fdec64 | venc | vdec | vcanon
  | rsvd (op : Nat)
  deriving DecidableEq, Repr

/-- An assembler line of R76, `MNEMONIC [len=…] [val=…] [bytes=…]`, after its numbers are read: `none` is an omitted
field, `bytes` lists lanes 0 upward. The numbers are what stands in the line; WellFormed.lean says which are allowed. -/
structure AsmLine where
  op    : AsmOp
  len   : Option Nat := none
  val   : Option Nat := none
  bytes : Option (List Nat) := none
  deriving DecidableEq, Repr

end Sys2Proof

namespace Sys2Proof.Machine

/-- What the caller has on the input pins at one rising edge (30_encoding.md R60, 70_reset_and_hazards.md R161). -/
structure EdgeInput where
  rst     : Bool
  inValid : Bool
  req     : ReqBundle
  deriving DecidableEq, Repr

/-- An idle edge: no reset and no request (30_encoding.md R65, R68). -/
def EdgeInput.idle : EdgeInput := { rst := false, inValid := false, req := 0#136 }

end Sys2Proof.Machine
end

