-- ==== Sys2Proof/Config.lean ====
section
/-!
DEFINITION. What an implementation fixes and what the spec leaves free.
-/

namespace Sys2Proof

/-- The parameter `LAT` where nothing else is said: an integer at least 1, default 1 (00_scope.md R9). A machine of
another latency is a state with another number of stages (`Machine.State.resetWith`). -/
def Config.defaultLat : Nat := 1

/-- The content of stage `k` between power-up and the first reset edge: 136 free bits, the valid flag above the
135-bit response. The spec calls them unspecified and asks for a draw per bit (10_state.md R28, 70_reset_and_hazards.md
R162). They may be others at each power-up and after each edge, and may depend on everything sampled since
(`samples`, the latest first). FREE VALUE (log 4): no body, nothing can be proved of it. -/
opaque Config.unspecifiedStage (powerUp : Nat) (samples : List Machine.EdgeInput) (k : Nat) : BitVec 136

end Sys2Proof
end

