-- ==== Sys2Proof/Decode.lean ====
section
/-!
DEFINITION. The request format and the opcode map (30_encoding.md R60, R61, R68, R69): a decoder total on all 2^136
bundles, the encoder, and the encoding of an assembler line (R76). Every bundle has the one format of R60, and only
`op` selects how the rest is read.
-/

namespace Sys2Proof

/-! ## Fields of a request bundle (R60) -/

/-- `op = REQ[135:132]`. -/
def reqOp (req : ReqBundle) : OpField := req.extractLsb' 132 4

/-- `len = REQ[131:128]`. -/
def reqLen (req : ReqBundle) : LenField := req.extractLsb' 128 4

/-- `val = REQ[127:64]`. -/
def reqVal (req : ReqBundle) : Word := req.extractLsb' 64 64

/-- `bytes = REQ[63:0]`. -/
def reqBytes (req : ReqBundle) : LaneVec := req.extractLsb' 0 64

/-- The operand fields of a bundle. -/
def reqOperands (req : ReqBundle) : Operands :=
  { len := reqLen req, val := reqVal req, bytes := reqBytes req }

/-- `REQ[135:0] = {op, len, val, bytes}`. -/
def packReq (op : OpField) (o : Operands) : ReqBundle :=
  (op ++ o.len) ++ (o.val ++ o.bytes)

/-! ## The opcode map (R61) -/

/-- The reserved selectors of R68. -/
def reservedOps : List OpField := [0x0#4, 0x4#4, 0xB#4, 0xC#4, 0xD#4, 0xE#4, 0xF#4]

/-- The rows of R61, read from the selector: an operation of the operands, or nothing for a reserved selector. -/
def instrOfOp (op : OpField) (o : Operands) : Option Instr :=
  match op with
  | 0x1#4 => some (.fenc16 o)
  | 0x2#4 => some (.fenc32 o)
  | 0x3#4 => some (.fenc64 o)
  | 0x5#4 => some (.fdec16 o)
  | 0x6#4 => some (.fdec32 o)
  | 0x7#4 => some (.fdec64 o)
  | 0x8#4 => some (.venc o)
  | 0x9#4 => some (.vdec o)
  | 0xA#4 => some (.vcanon o)
  | _ => none

/-- The decoder, total on all bundles (R67): the operation of R61, or a rejection naming the reserved selector (R68). -/
def decode (req : ReqBundle) : Decoded :=
  match instrOfOp (reqOp req) (reqOperands req) with
  | some i => .instr i
  | none => .reservedOp (reqOp req)

/-! ## The encoder -/

/-- The selector of an operation (R61). -/
def Instr.opcode (i : Instr) : OpField :=
  match i with
  | .fenc16 _ => 0x1#4
  | .fenc32 _ => 0x2#4
  | .fenc64 _ => 0x3#4
  | .fdec16 _ => 0x5#4
  | .fdec32 _ => 0x6#4
  | .fdec64 _ => 0x7#4
  | .venc _ => 0x8#4
  | .vdec _ => 0x9#4
  | .vcanon _ => 0xA#4

/-- The operand fields of an operation. -/
def Instr.operands (i : Instr) : Operands :=
  match i with
  | .fenc16 o | .fenc32 o | .fenc64 o | .fdec16 o | .fdec32 o | .fdec64 o | .venc o | .vdec o | .vcanon o => o

/-- The request bundle of an operation (R60, R61). -/
def encode (i : Instr) : ReqBundle := packReq i.opcode i.operands

/-! ## Assembler lines (R76) -/

/-- The selector an assembler line names. -/
def AsmOp.opcode (a : AsmOp) : OpField :=
  match a with
  | .fenc16 => 0x1#4
  | .fenc32 => 0x2#4
  | .fenc64 => 0x3#4
  | .fdec16 => 0x5#4
  | .fdec32 => 0x6#4
  | .fdec64 => 0x7#4
  | .venc => 0x8#4
  | .vdec => 0x9#4
  | .vcanon => 0xA#4
  | .rsvd op => BitVec.ofNat 4 op

/-- A lane vector from its lanes, lane 0 first; an omitted lane is zero (R11, R76). Lanes after the eighth are not
part of the vector. -/
def lanesOfBytes (bs : List Byte) : LaneVec :=
  bs.getD 0 0#8 ++ bs.getD 1 0#8 ++ bs.getD 2 0#8 ++ bs.getD 3 0#8 ++
    bs.getD 4 0#8 ++ bs.getD 5 0#8 ++ bs.getD 6 0#8 ++ bs.getD 7 0#8

/-- The operand fields a line gives: "An omitted field is zero" (R76). -/
def AsmLine.operands (a : AsmLine) : Operands :=
  { len := BitVec.ofNat 4 (a.len.getD 0)
    val := BitVec.ofNat 64 (a.val.getD 0)
    bytes := lanesOfBytes ((a.bytes.getD []).map (BitVec.ofNat 8)) }

/-- The encoding of a line, the `REQ` of R60 (R76). -/
def AsmLine.assemble (a : AsmLine) : ReqBundle := packReq a.op.opcode a.operands

/-- A bundle as the spec writes it: 34 hexadecimal digits, `op` first (R76). -/
def reqHexDigits (req : ReqBundle) : List (BitVec 4) :=
  (List.range 34).map fun k => req.extractLsb' (132 - 4 * k) 4

/-! ## The host's view of the table -/

/-- The operation the decoder reads from the table's word `w` of `nbits` bits. The table writes the 136-bit bundle as
one number, bit 0 of the number being `REQ[0]`; bits above `nbits` are zero (log 10). -/
def bundleOfTableWord (nbits w : Nat) : ReqBundle := BitVec.ofNat 136 (w % 2 ^ nbits)

/-- The host's reading of a table word: what `decode` gives, `none` where it rejects. -/
def decodeTableWord (nbits w : Nat) : Option Instr :=
  match decode (bundleOfTableWord nbits w) with
  | .instr i => some i
  | .reservedOp _ => none

end Sys2Proof
end

