-- ==== Sys2Proof/Machine/State.lean ====
section
/-!
DEFINITION. The state of PQ-CODEC: the response pipeline and nothing else (10_state.md R20 to R23), with the samples
the caller will have on the input pins at the coming clock edges (log 1).
-/

namespace Sys2Proof.Machine

/-- The error kinds of 60_exceptions.md R130. Their 2-bit codes are in Machine/Flags.lean. -/
inductive Err where
  /-- no failure -/
  | ok
  /-- `BufferTooShort` -/
  | bufShort
  /-- `ValueOutOfRange` -/
  | range
  /-- a reserved `op` (R132) -/
  | illegalOp
  deriving DecidableEq, Repr

/-- The fields of a response (30_encoding.md R66). -/
structure Rsp where
  err   : Err
  canon : Bool
  len   : LenField
  val   : Word
  bytes : LaneVec
  deriving DecidableEq, Repr

/-- `ZERO`, the response with every field zero (00_scope.md R12). -/
def Rsp.zero : Rsp := { err := .ok, canon := false, len := 0#4, val := 0#64, bytes := 0#64 }

/-- One pipeline stage `S[k]`: the valid flag and the response (10_state.md R23). -/
structure Stage where
  v : Bool
  r : Rsp
  deriving DecidableEq, Repr

/-- The stage that holds no response: `(v = 0, r = ZERO)` (10_state.md R24, R28). -/
def Stage.empty : Stage := { v := false, r := Rsp.zero }

/-- Whether a reset edge has come since power-up. Until it has, every stage is unspecified (10_state.md R28,
70_reset_and_hazards.md R162), and its bits are free values that this names (log 4): `powerUp` numbers the power-up,
and `samples` are the pins at the edges since then, the latest first. -/
inductive Phase where
  | unreset (powerUp : Nat) (samples : List EdgeInput)
  | ready
  deriving DecidableEq, Repr

/-- The whole state. `s1` is `S[1]` and `later` is `S[2], …, S[LAT]`, so the pipeline has at least one stage, as
`LAT ≥ 1` asks (00_scope.md R9, 10_state.md R23). Two fields are the model's own: `inputs`, what the caller will drive
at the coming edges, the next one first (log 1), and `phase`, which says whether the stages are still unspecified
(log 4). -/
structure State where
  s1     : Stage
  later  : List Stage
  inputs : List EdgeInput
  phase  : Phase
  deriving DecidableEq, Repr

/-- Why a step could stop with a fault: nothing does. `Exec` is total on all request bundles (30_encoding.md R67), an
error is an ordinary response (60_exceptions.md R134), and no edge stalls (10_state.md R24). No constructor, so no
one raises it; safe. -/
inductive Fault where
  deriving DecidableEq, Repr

/-- Why an instruction could be refused. -/
inductive Refusal where
  /-- Raised by an arm of `exec` whose instruction has no meaning yet; no arm raises it in this model. Safe: nothing
  is claimed of a refused instruction. -/
  | notModelled (mnemonic : String)
  deriving DecidableEq, Repr

/-- A machine with `lat` stages right after a clock edge with `rst = 1`: every stage `(v = 0, r = ZERO)`
(10_state.md R28); the caller has scheduled nothing yet. A `lat` of 0 does not exist (R9) and gives one stage. -/
def State.resetWith (lat : Nat) : State :=
  { s1 := Stage.empty, later := List.replicate (lat - 1) Stage.empty, inputs := [], phase := .ready }

/-- The machine right after reset at the default latency (10_state.md R28, 00_scope.md R9). -/
def State.reset : State := State.resetWith Config.defaultLat

end Sys2Proof.Machine
end

