-- ==== Sys2Proof/Machine/Operands.lean ====
section
/-!
DEFINITION. The operand forms of the nine operations: widths and length tiers, the length operand, and the fields an
operation takes from `val` and `bytes` (30_encoding.md R61 to R63, R70; 41_varint.md R100, R101).
-/

namespace Sys2Proof.Machine

/-! ## Fixed widths -/

/-- The fixed-width integer widths (00_scope.md R8). -/
inductive Width where
  | w16 | w32 | w64
  deriving DecidableEq, Repr

/-- `W` in bits. -/
def Width.bits (w : Width) : Nat :=
  match w with
  | .w16 => 16
  | .w32 => 32
  | .w64 => 64

/-- `W/8`, the number of bytes of an encoding (R8). -/
def Width.bytes (w : Width) : Nat := w.bits / 8

/-- `W/8` as a response length. -/
def Width.lenField (w : Width) : LenField := BitVec.ofNat 4 w.bytes

/-- The integer operand of FENCW: `val[W-1:0]`; the upper bits are not read (R70). -/
def fixedValue (w : Width) (o : Operands) : BitVec w.bits := o.val.extractLsb' 0 w.bits

/-- The bytes FDECW reads: lanes `0 … W/8-1`, which are `bytes[63:64-W]` (40_fixed_width.md R85). -/
def fixedField (w : Width) (o : Operands) : BitVec w.bits := o.bytes.extractLsb' (64 - w.bits) w.bits

/-- `W(op) = 8 · 2^(op[1:0])`, the width the selector's low bits name; the spec gives it where `op[1:0] ≠ 00` (30_encoding.md
R61), and `Exec` uses it only there. -/
def widthOfOp (op : OpField) : Width :=
  match op.extractLsb' 0 2 with
  | 0b01#2 => .w16
  | 0b10#2 => .w32
  | _ => .w64

/-! ## Length tiers of the varint format -/

/-- A length tier, one row of the wire-format table (30_encoding.md R72), named by its encoding length. -/
inductive Tier where
  | l1 | l2 | l4 | l8
  deriving DecidableEq, Repr

/-- The total encoding length in bytes (R72). -/
def Tier.len (t : Tier) : Nat :=
  match t with
  | .l1 => 1
  | .l2 => 2
  | .l4 => 4
  | .l8 => 8

/-- The usable value bits of a tier, `8L - 2` (R72). -/
def Tier.usableBits (t : Tier) : Nat := 8 * t.len - 2

/-- The encoding length as a response length. -/
def Tier.lenField (t : Tier) : LenField := BitVec.ofNat 4 t.len

/-- `TagLen`: the tier the 2-bit length tag selects (41_varint.md R100). -/
def tagLen (t : BitVec 2) : Tier :=
  match t with
  | 0b00#2 => .l1
  | 0b01#2 => .l2
  | 0b10#2 => .l4
  | _ => .l8

/-- `LenTag`, the inverse of `TagLen` (41_varint.md R101). -/
def lenTag (t : Tier) : BitVec 2 :=
  match t with
  | .l1 => 0b00#2
  | .l2 => 0b01#2
  | .l4 => 0b10#2
  | .l8 => 0b11#2

/-- `MinLen`, the tier of the shortest encoding that holds the value (41_varint.md R102). The spec evaluates it only
below 2^62, and so do the meanings, after their range check. -/
def minLen (v : Word) : Tier :=
  if v.toNat < 2 ^ 6 then .l1
  else if v.toNat < 2 ^ 14 then .l2
  else if v.toNat < 2 ^ 30 then .l4
  else .l8

/-! ## The length operand and the varint fields -/

/-- `sat8(len) = min(len, 8)`: the available length of VDEC and the capacity of VENC (30_encoding.md R63). -/
def sat8 (len : LenField) : Nat := min len.toNat 8

/-- The length tag of the varint in lane 0: `bytes[63:62]` (30_encoding.md R73). -/
def varintTag (o : Operands) : BitVec 2 := o.bytes.extractLsb' 62 2

/-- `F = bytes[63:64-8L]`: lanes `0 … L-1` of the varint, lane 0 most significant (41_varint.md R110). -/
def varintField (t : Tier) (o : Operands) : BitVec (8 * t.len) := o.bytes.extractLsb' (64 - 8 * t.len) (8 * t.len)

end Sys2Proof.Machine
end

