-- ==== Sys2Proof/Machine/Flags.lean ====
section
/-!
DEFINITION. The status fields of a response and the checks behind them: error codes (60_exceptions.md R130), the
range check of a varint value, the availability and capacity checks, and the canonicality verdict.
-/

namespace Sys2Proof.Machine

/-- The code of an error kind (R130). -/
def Err.code (e : Err) : BitVec 2 :=
  match e with
  | .ok => 0b00#2
  | .bufShort => 0b01#2
  | .range => 0b10#2
  | .illegalOp => 0b11#2

/-- The error kind of a code: the four codes are the four kinds (R130). -/
def Err.ofCode (c : BitVec 2) : Err :=
  match c with
  | 0b00#2 => .ok
  | 0b01#2 => .bufShort
  | 0b10#2 => .range
  | _ => .illegalOp

/-- `v[63:62] ≠ 00`: the value is 2^62 or more, outside the varint domain (41_varint.md R105, R112). -/
def outOfDomain (v : Word) : Bool := v.extractLsb' 62 2 != 0b00#2

/-- `A < L`: fewer bytes offered than the encoding has (41_varint.md R105, R110). -/
def tooShort (offered needed : Nat) : Bool := decide (offered < needed)

/-- The canonicality verdict `req.len == m`: an exact comparison of all four bits (41_varint.md R112). -/
def canonVerdict (len m : LenField) : Bool := len == m

end Sys2Proof.Machine
end

