-- ==== Sys2Proof/Machine/Ops.lean ====
section
/-!
DEFINITION. The named operations over lanes, responses and the pipeline. The machine has no memory and no registers
an instruction names (10_state.md R20, 20_memory.md R40): lanes stand in for memory, and the pipeline is all there is
to write.
-/

namespace Sys2Proof.Machine

/-! ## Lanes -/

/-- `Lane(B, k) = B[63-8k : 56-8k]` (00_scope.md R11). -/
def lane (b : LaneVec) (k : Fin 8) : Byte := b.extractLsb' (56 - 8 * k.val) 8

/-- `BufRead(k)`: lane `k` of the request's bytes (R11). -/
def bufRead (o : Operands) (k : Fin 8) : Byte := lane o.bytes k

/-- The lane vector with lane `k` replaced. -/
def setLane (b : LaneVec) (k : Fin 8) (x : Byte) : LaneVec :=
  (b &&& ~~~(0xFF#64 <<< (56 - 8 * k.val))) ||| (x.setWidth 64 <<< (56 - 8 * k.val))

/-- `BufWrite(k, b)`: set lane `k` of the response's bytes (R11). -/
def Rsp.bufWrite (r : Rsp) (k : Fin 8) (x : Byte) : Rsp := { r with bytes := setLane r.bytes k x }

/-- An `n`-bit field placed in the top bits of a lane vector, so that its most significant byte is lane 0 and the
lanes after it are zero: `zext_64(E) << (64 - n)` (40_fixed_width.md R80, R81; 41_varint.md R105). -/
def placeHigh (n : Nat) (e : BitVec n) : LaneVec := e.setWidth 64 <<< (64 - n)

/-! ## Errors -/

/-- `raise E`: the response with `err` set and every other field zero. Nothing written before it survives (00_scope.md
R12, 60_exceptions.md R131). This is all there is of taking an exception: no state is saved, nothing is redirected,
and there is no return (R134, R135). -/
def raise (e : Err) : Rsp := { Rsp.zero with err := e }

/-! ## Response bundles (30_encoding.md R66) -/

/-- `RSP[134:0] = {err, canon, len, val, bytes}`. -/
def Rsp.pack (r : Rsp) : RspBundle :=
  (r.err.code ++ BitVec.ofBool r.canon ++ r.len) ++ (r.val ++ r.bytes)

/-- The response a 135-bit pattern stands for. -/
def Rsp.unpack (b : RspBundle) : Rsp :=
  { err := Err.ofCode (b.extractLsb' 133 2)
    canon := b.getLsbD 132
    len := b.extractLsb' 128 4
    val := b.extractLsb' 64 64
    bytes := b.extractLsb' 0 64 }

/-- The stage a 136-bit pattern stands for: the valid flag above the response (10_state.md R23). -/
def Stage.ofBits (b : BitVec 136) : Stage :=
  { v := b.getLsbD 135, r := Rsp.unpack (b.setWidth 135) }

/-! ## The pipeline -/

/-- `S[1], S[2], …, S[LAT]` (10_state.md R23). -/
def State.stages (s : State) : List Stage := s.s1 :: s.later

/-- `LAT`, the number of stages (00_scope.md R9). -/
def State.lat (s : State) : Nat := s.stages.length

/-- `S[LAT]`. -/
def State.last (s : State) : Stage := s.later.getLast?.getD s.s1

/-- The output ports (10_state.md R25). -/
structure Outputs where
  outValid : Bool
  outErr   : BitVec 2
  outCanon : Bool
  outLen   : LenField
  outVal   : Word
  outBytes : LaneVec
  deriving DecidableEq, Repr

/-- The outputs are the fields of `S[LAT]`, straight from the register (10_state.md R25). -/
def State.outputs (s : State) : Outputs :=
  { outValid := s.last.v
    outErr := s.last.r.err.code
    outCanon := s.last.r.canon
    outLen := s.last.r.len
    outVal := s.last.r.val
    outBytes := s.last.r.bytes }

/-- What stage `S[k]` holds before the first reset edge: a free value (10_state.md R28; log 4). -/
def unspecifiedStage (powerUp : Nat) (samples : List EdgeInput) (k : Nat) : Stage :=
  Stage.ofBits (Config.unspecifiedStage powerUp samples k)

/-- Every stage unspecified, as it is from power-up until the first edge with `rst = 1` (70_reset_and_hazards.md
R162). -/
def State.unspecify (s : State) (powerUp : Nat) (samples : List EdgeInput) : State :=
  { s with s1 := unspecifiedStage powerUp samples 1
           later := (List.range s.later.length).map fun k => unspecifiedStage powerUp samples (k + 2) }

/-- A clock edge without reset: `S[1]` is loaded and every later stage takes its predecessor's old content
(10_state.md R24). Before the first reset edge every stage stays unspecified instead, whatever is loaded
(70_reset_and_hazards.md R162). -/
def State.shiftIn (s : State) (st : Stage) : State :=
  match s.phase with
  | .ready => { s with s1 := st, later := (s.s1 :: s.later).dropLast }
  | .unreset powerUp samples => s.unspecify powerUp samples

/-- The edge of a valid request: `S[1] <- (v = 1, r = Exec(req))` (10_state.md R24). -/
def State.respond (s : State) (r : Rsp) : State := s.shiftIn { v := true, r := r }

/-- The edge of no request: `S[1] <- (v = 0, r = ZERO)` (10_state.md R24, 30_encoding.md R65). -/
def State.idleEdge (s : State) : State := s.shiftIn Stage.empty

/-- The edge with `rst = 1`: every stage is cleared, whatever it held (10_state.md R24, R28; 70_reset_and_hazards.md
R161), and from then on holds what R24 puts there (R162). -/
def State.resetEdge (s : State) : State :=
  { s with s1 := Stage.empty, later := s.later.map fun _ => Stage.empty, phase := .ready }

/-- The edge of a valid request with a reserved `op`: the ILLEGAL_OP response, no other field of the request read
(60_exceptions.md R132, 30_encoding.md R68). -/
def State.illegalOpEdge (s : State) : State := s.respond (raise .illegalOp)

/-- A machine with `lat` stages right after power-up, before any edge: every stage bit is a free value (10_state.md
R28, 70_reset_and_hazards.md R162; log 4), and stays one until the first reset edge (`State.shiftIn`). -/
def State.powerUp (lat powerUp : Nat) (inputs : List EdgeInput) : State :=
  State.unspecify { State.resetWith lat with inputs := inputs, phase := .unreset powerUp [] } powerUp []

/-! ## The input pins (log 1) -/

/-- What is on the pins at the next edge; a schedule that has run out is an idle caller (log 1). -/
def State.sampled (s : State) : EdgeInput := s.inputs.head?.getD EdgeInput.idle

/-- Before the first reset edge a sample joins what the unspecified stages may depend on (log 4). -/
def Phase.record (p : Phase) (e : EdgeInput) : Phase :=
  match p with
  | .ready => .ready
  | .unreset powerUp samples => .unreset powerUp (e :: samples)

/-- The state once that sample is taken: the rest of the schedule lies ahead. -/
def State.afterSample (s : State) : State :=
  { s with inputs := s.inputs.tail, phase := s.phase.record s.sampled }

/-- The state with another sample on the pins at the next edge; the edges after it keep theirs. -/
def State.present (s : State) (e : EdgeInput) : State := { s with inputs := e :: s.inputs.tail }

end Sys2Proof.Machine
end

