-- ==== Sys2Proof/Machine/FixedWidth.lean ====
section
/-!
DEFINITION. The fixed-width big-endian encoder/decoder (40_fixed_width.md). It has no error path.
-/

namespace Sys2Proof.Machine

/-- `FENC(W, req)` (R81): the value's W bits in lanes `0 … W/8-1`, most significant byte first. -/
def fenc (w : Width) (o : Operands) : Rsp :=
  { Rsp.zero with len := w.lenField, bytes := placeHigh w.bits (fixedValue w o) }

/-- `FDEC(W, req)` (R85): the W bits of lanes `0 … W/8-1`, zero-extended; `len` is not consulted. -/
def fdec (w : Width) (o : Operands) : Rsp :=
  { Rsp.zero with len := w.lenField, val := (fixedField w o).setWidth 64 }

/-- FENC16 (R82). -/
def execFenc16 (o : Operands) (s : State) : Host.Outcome State Fault Refusal := .next (s.respond (fenc .w16 o))

/-- FENC32 (R83). -/
def execFenc32 (o : Operands) (s : State) : Host.Outcome State Fault Refusal := .next (s.respond (fenc .w32 o))

/-- FENC64 (R84). -/
def execFenc64 (o : Operands) (s : State) : Host.Outcome State Fault Refusal := .next (s.respond (fenc .w64 o))

/-- FDEC16 (R86). -/
def execFdec16 (o : Operands) (s : State) : Host.Outcome State Fault Refusal := .next (s.respond (fdec .w16 o))

/-- FDEC32 (R87). -/
def execFdec32 (o : Operands) (s : State) : Host.Outcome State Fault Refusal := .next (s.respond (fdec .w32 o))

/-- FDEC64 (R88). -/
def execFdec64 (o : Operands) (s : State) : Host.Outcome State Fault Refusal := .next (s.respond (fdec .w64 o))

end Sys2Proof.Machine
end

