-- ==== Sys2Proof/Machine/Varint.lean ====
section
/-!
DEFINITION. The varint length dispatcher and encoder, the decoder and the canonicality checker (41_varint.md).
-/

namespace Sys2Proof.Machine

/-- The 8L-bit encoding `E = {LenTag(L), v[8L-3:0]}` (30_encoding.md R74). -/
def varintEncoding (t : Tier) (v : Word) : BitVec (2 + t.usableBits) := lenTag t ++ v.extractLsb' 0 t.usableBits

/-- The value of a varint's 8L bits: the two tag bits dropped, `zext_64(F[8L-3:0])` (41_varint.md R110). -/
def varintValue (t : Tier) (f : BitVec (8 * t.len)) : Word := (f.extractLsb' 0 t.usableBits).setWidth 64

/-- `VENC(req)` (R105). The range check comes before the capacity check (60_exceptions.md R133), and both before any
byte is produced (90_conflicts.md C1). -/
def vencRsp (o : Operands) : Rsp :=
  if outOfDomain o.val then raise .range
  else if tooShort (sat8 o.len) (minLen o.val).len then raise .bufShort
  else
    { Rsp.zero with
      len := (minLen o.val).lenField
      bytes := placeHigh (2 + (minLen o.val).usableBits) (varintEncoding (minLen o.val) o.val) }

/-- `VDEC(req)` (R110). With no byte available the tag is not read; a non-canonical encoding decodes normally (R115). -/
def vdecRsp (o : Operands) : Rsp :=
  if tooShort (sat8 o.len) 1 then raise .bufShort
  else if tooShort (sat8 o.len) (tagLen (varintTag o)).len then raise .bufShort
  else
    { Rsp.zero with
      len := (tagLen (varintTag o)).lenField
      val := varintValue (tagLen (varintTag o)) (varintField (tagLen (varintTag o)) o) }

/-- `VCANON(req)` (R112). It raises no error; a value outside the domain has no canonical encoding and answers
`ZERO`. -/
def vcanonRsp (o : Operands) : Rsp :=
  if outOfDomain o.val then Rsp.zero
  else
    { Rsp.zero with
      len := (minLen o.val).lenField
      canon := canonVerdict o.len (minLen o.val).lenField }

/-- VENC (R105). -/
def execVenc (o : Operands) (s : State) : Host.Outcome State Fault Refusal := .next (s.respond (vencRsp o))

/-- VDEC (R110). -/
def execVdec (o : Operands) (s : State) : Host.Outcome State Fault Refusal := .next (s.respond (vdecRsp o))

/-- VCANON (R112). -/
def execVcanon (o : Operands) (s : State) : Host.Outcome State Fault Refusal := .next (s.respond (vcanonRsp o))

end Sys2Proof.Machine
end

