-- ==== Sys2Proof/Machine/Dispatch.lean ====
section
/-!
DEFINITION. `Exec` on the nine operations (30_encoding.md R67), one arm per constructor of Instr: the clock edge at
which the operation's request is sampled.
-/

namespace Sys2Proof.Machine

def exec (i : Instr) (s : State) : Host.Outcome State Fault Refusal :=
  match i with
  | .fenc16 o => Sys2Proof.Machine.execFenc16 o s
  | .fenc32 o => Sys2Proof.Machine.execFenc32 o s
  | .fenc64 o => Sys2Proof.Machine.execFenc64 o s
  | .fdec16 o => Sys2Proof.Machine.execFdec16 o s
  | .fdec32 o => Sys2Proof.Machine.execFdec32 o s
  | .fdec64 o => Sys2Proof.Machine.execFdec64 o s
  | .venc o => Sys2Proof.Machine.execVenc o s
  | .vdec o => Sys2Proof.Machine.execVdec o s
  | .vcanon o => Sys2Proof.Machine.execVcanon o s

end Sys2Proof.Machine
end

