-- ==== Sys2Proof/Machine/Step.lean ====
section
/-!
DEFINITION. One step is one rising edge of `clk` (10_state.md R24, 70_reset_and_hazards.md R160).
-/

namespace Sys2Proof.Machine

/-- One rising edge (10_state.md R24): the pins are sampled; `rst` takes precedence over `in_valid`; a valid request
is decoded and performed; a reserved `op` gets its ILLEGAL_OP response (30_encoding.md R67, R68); with `in_valid = 0`
all of `REQ` is ignored (R65). -/
def step (s : State) : Host.Outcome State Fault Refusal :=
  if s.sampled.rst then .next s.afterSample.resetEdge
  else if s.sampled.inValid then
    match decode s.sampled.req with
    | .instr i => exec i s.afterSample
    | .reservedOp _ => .next s.afterSample.illegalOpEdge
  else .next s.afterSample.idleEdge

/-- The caller presents the table's word as a valid request at the next edge (log 2). -/
def State.withFetchWord (s : State) (nbits w : Nat) : State :=
  s.present { rst := false, inValid := true, req := bundleOfTableWord nbits w }

end Sys2Proof.Machine
end

