-- ==== Sys2Proof/Machine/Buffers.lean ====
section
/-!
DEFINITION. The caller's side of the lane windows (20_memory.md R41, R42). A caller's byte buffer is not state of
PQ-CODEC (10_state.md R30); these functions on byte lists say how a buffer's bytes become lanes and which lanes the
caller stores.
-/

namespace Sys2Proof.Machine

/-- The lanes of a vector in buffer order, lane 0 first. -/
def laneList (b : LaneVec) : List Byte := (List.finRange 8).map (lane b)

/-- The input window (R41): buffer bytes from position `p` in lanes 0 upward. The lanes past the end of the buffer are
don't-care; this caller drives zero there (log 12). -/
def inputWindow (buf : List Byte) (p : Nat) : LaneVec := lanesOfBytes (buf.drop p)

/-- The length operand of a caller with `n` bytes left: the 4-bit field holds 0 to 15, and any value from 8 up means 8
or more (30_encoding.md R63). -/
def lenOperand (n : Nat) : LenField := BitVec.ofNat 4 (min n 15)

/-- The bytes a response carries for the caller's buffer: lanes `0 … len-1` (R42). -/
def Rsp.storedBytes (r : Rsp) : List Byte := (laneList r.bytes).take r.len.toNat

/-- The caller's buffer after it stores a response at position `p`: exactly `len` bytes replaced, the others kept
(R42). -/
def storeAt (buf : List Byte) (p : Nat) (r : Rsp) : List Byte :=
  buf.take p ++ (r.storedBytes ++ buf.drop (p + r.len.toNat))

end Sys2Proof.Machine
end

