-- ==== Sys2Proof/Machine/Request.lean ====
section
/-!
DEFINITION. `Exec` as the pure function of a request bundle that 30_encoding.md R67 writes, and what a sample of the
pins loads into `S[1]` (10_state.md R24). Statements about runs use it; the step goes through `decode` and `exec`, and
an obligation says that the two agree.
-/

namespace Sys2Proof.Machine

/-- `Exec(req)`, total on all bundles, by cases on `op` (R67). -/
def execRsp (req : ReqBundle) : Rsp :=
  match reqOp req with
  | 0x1#4 | 0x2#4 | 0x3#4 => fenc (widthOfOp (reqOp req)) (reqOperands req)
  | 0x5#4 | 0x6#4 | 0x7#4 => fdec (widthOfOp (reqOp req)) (reqOperands req)
  | 0x8#4 => vencRsp (reqOperands req)
  | 0x9#4 => vdecRsp (reqOperands req)
  | 0xA#4 => vcanonRsp (reqOperands req)
  | _ => raise .illegalOp

/-- What an edge without reset loads into `S[1]`: `(v = 1, r = Exec(req))` or `(v = 0, r = ZERO)` (R24). -/
def EdgeInput.load (e : EdgeInput) : Stage :=
  if e.inValid then { v := true, r := execRsp e.req } else Stage.empty

end Sys2Proof.Machine
end

