-- ==== Sys2Proof/Safety.lean ====
section
/-!
DEFINITION. What counts as a legal response, a legal state and a safe use, in the terms the statements use.
-/

namespace Sys2Proof

/-- What the caller of a decode owes (93_implementation_defined.md): a fixed-width decode is presented at least W/8
real bytes, because the block does not check it. The varint operations check their own length. -/
def Instr.presentedEnough (avail : Nat) (i : Instr) : Bool :=
  match i with
  | .fdec16 _ => decide (2 ≤ avail)
  | .fdec32 _ => decide (4 ≤ avail)
  | .fdec64 _ => decide (8 ≤ avail)
  | .fenc16 _ | .fenc32 _ | .fenc64 _ | .venc _ | .vdec _ | .vcanon _ => true

end Sys2Proof

namespace Sys2Proof.Machine

/-- What every response of the codec meets (necessary conditions, which do not say that some request gets it). An error response is zero but for `err` (60_exceptions.md R131). `len` is 0,
1, 2, 4 or 8, the lanes from `len` on are zero (20_memory.md R42), a decoded integer has at most `len` bytes, no
operation answers both an integer and bytes, only VCANON sets `canon` and answers neither (30_encoding.md R71), and a
response of length 0 carries nothing. -/
abbrev Rsp.Legal (r : Rsp) : Prop :=
  (r.err ≠ .ok → r = raise r.err) ∧
  r.len.toNat ∈ [0, 1, 2, 4, 8] ∧
  (∀ k : Fin 8, r.len.toNat ≤ k.val → lane r.bytes k = 0#8) ∧
  r.val.toNat < 2 ^ (8 * r.len.toNat) ∧
  (r.val = 0#64 ∨ r.bytes = 0#64) ∧
  (r.canon = true → r.err = .ok ∧ r.len ≠ 0#4 ∧ r.val = 0#64 ∧ r.bytes = 0#64) ∧
  (r.len = 0#4 → r = raise r.err)

/-- A stage that holds no valid response holds `ZERO` (10_state.md R29). -/
abbrev Stage.ZeroIfIdle (st : Stage) : Prop := st.v = false → st.r = Rsp.zero

/-- Every stage that does not hold a valid response holds `ZERO` (10_state.md R29). It can fail only between power-up
and the first reset edge. -/
abbrev State.ZeroWhileIdle (s : State) : Prop := ∀ st ∈ s.stages, st.ZeroIfIdle

/-- The invariant of the pipeline from the first reset edge on: every stage is empty or valid, with a legal
response. -/
abbrev State.Inv (s : State) : Prop := s.phase = .ready ∧ ∀ st ∈ s.stages, st.ZeroIfIdle ∧ st.r.Legal

/-- The invariant from power-up on: the stages are the free values that the phase names, or a reset edge has come and
`Inv` holds (10_state.md R28, 70_reset_and_hazards.md R162; log 4). -/
def State.UnspecifiedOrInv (s : State) : Prop :=
  (∃ powerUp samples, s.phase = .unreset powerUp samples ∧
    s.stages = (List.range s.lat).map fun k => unspecifiedStage powerUp samples (k + 1)) ∨
  s.Inv

/-- What the caller of a dependent request owes: an edge at which the earlier response, of the request sampled at
edge `t`, has been seen (70_reset_and_hazards.md R166). The block does not check it. -/
def dependentInTime (lat t tDependent : Nat) : Bool := decide (t + lat ≤ tDependent)

/-- A safe step: one that answers a next state. Every step of this machine is safe, and a statement says so. -/
def StepsOn (s : State) : Prop := ∃ t, step s = .next t

end Sys2Proof.Machine
end

