-- ==== Sys2Proof/WellFormed.lean ====
section
/-!
DEFINITION. Which written terms are legal. An `Instr` has no ill-formed term: its fields have exactly the widths of
30_encoding.md R60 by type, and `Exec` is total on all 2^136 bundles (R67), so every operand value of every operation
is a request. What can be ill-formed is an assembler line (R76), whose numbers are unbounded; each check below has an
ill-formed line in Tests/Slice0.lean that it refuses.
-/

namespace Sys2Proof

/-- `len=<0..15>` (R76). -/
def AsmLine.lenFits (a : AsmLine) : Bool := decide (a.len.getD 0 < 16)

/-- `val` is a 64-bit integer operand (R60). -/
def AsmLine.valFits (a : AsmLine) : Bool := decide (a.val.getD 0 < 2 ^ 64)

/-- `bytes=<b0 … b7>` lists at most the eight lanes (R76). -/
def AsmLine.lanesFit (a : AsmLine) : Bool := decide ((a.bytes.getD []).length ≤ 8)

/-- Each listed lane is a byte (R11). -/
def AsmLine.bytesFit (a : AsmLine) : Bool := (a.bytes.getD []).all fun b => decide (b < 256)

/-- `RSVD op=<hex>` names a reserved op (R76, R68). -/
def AsmLine.opFits (a : AsmLine) : Bool :=
  match a.op with
  | .rsvd op => decide (op < 16) && reservedOps.contains (BitVec.ofNat 4 op)
  | .fenc16 | .fenc32 | .fenc64 | .fdec16 | .fdec32 | .fdec64 | .venc | .vdec | .vcanon => true

/-- A line the syntax of R76 allows. -/
def AsmLine.wellFormed (a : AsmLine) : Bool :=
  a.lenFits && a.valFits && a.lanesFit && a.bytesFit && a.opFits

end Sys2Proof
end

