-- ==== Sys2Proof/Certificates/Slice0/Obligations.lean ====
section
/-!
DEFINITION. The statements for the provers, from the spec's numbered rules. Responses are written out field by field in
the order err, canon, len, val, bytes (30_encoding.md R66).

What an edge without reset loads has the premise `s.phase = .ready`: a reset edge has come since power-up. Before it every
stage is unspecified whatever is requested (10_state.md R28, 70_reset_and_hazards.md R162; free values, log 4), which
`UnresetEdgeLeavesStagesUnspecified` says of every operation and every edge.
-/

open Sys2Proof Sys2Proof.Machine

/-! ## Encoding -/

/-- Decoding the bundle of any operation, with every operand at every value, gives the operation back (30_encoding.md
R60, R61). -/
def Obligations.DecodeOfEncodeIsIdentity : Prop :=
  ∀ i : Instr, decode (encode i) = .instr i

/-- Each bundle that decodes has one meaning and no bit of it is dropped: the operation it decodes to encodes back to
the same 136 bits (R60, R61, R69). -/
def Obligations.EncodeOfDecodeIsIdentity : Prop :=
  ∀ (req : ReqBundle) (i : Instr), decode req = .instr i → encode i = req

/-- The opcode map (R61): the nine rows with the operand fields where R60 puts them; the reserved selectors; the
structure of the selector; and `W(op) = 8 · 2^(op[1:0])`. -/
def Obligations.OpcodeMapAsTabulated : Prop :=
  (∀ (len : LenField) (val : Word) (bytes : LaneVec),
    decode ((0b0001#4 ++ len) ++ (val ++ bytes)) = .instr (.fenc16 ⟨len, val, bytes⟩) ∧
    decode ((0b0010#4 ++ len) ++ (val ++ bytes)) = .instr (.fenc32 ⟨len, val, bytes⟩) ∧
    decode ((0b0011#4 ++ len) ++ (val ++ bytes)) = .instr (.fenc64 ⟨len, val, bytes⟩) ∧
    decode ((0b0101#4 ++ len) ++ (val ++ bytes)) = .instr (.fdec16 ⟨len, val, bytes⟩) ∧
    decode ((0b0110#4 ++ len) ++ (val ++ bytes)) = .instr (.fdec32 ⟨len, val, bytes⟩) ∧
    decode ((0b0111#4 ++ len) ++ (val ++ bytes)) = .instr (.fdec64 ⟨len, val, bytes⟩) ∧
    decode ((0b1000#4 ++ len) ++ (val ++ bytes)) = .instr (.venc ⟨len, val, bytes⟩) ∧
    decode ((0b1001#4 ++ len) ++ (val ++ bytes)) = .instr (.vdec ⟨len, val, bytes⟩) ∧
    decode ((0b1010#4 ++ len) ++ (val ++ bytes)) = .instr (.vcanon ⟨len, val, bytes⟩)) ∧
  (∀ (op : OpField) (len : LenField) (val : Word) (bytes : LaneVec),
    op ∈ [0b0000#4, 0b0100#4, 0b1011#4, 0b1100#4, 0b1101#4, 0b1110#4, 0b1111#4] →
    decode ((op ++ len) ++ (val ++ bytes)) = .reservedOp op) ∧
  (∀ (req : ReqBundle) (i : Instr), decode req = .instr i →
    ((req.getLsbD 135 = false) ↔
      ∃ o, i = .fenc16 o ∨ i = .fenc32 o ∨ i = .fenc64 o ∨ i = .fdec16 o ∨ i = .fdec32 o ∨ i = .fdec64 o) ∧
    ((req.getLsbD 135 = false ∧ req.getLsbD 134 = false) ↔ ∃ o, i = .fenc16 o ∨ i = .fenc32 o ∨ i = .fenc64 o)) ∧
  (∀ op : OpField, op.extractLsb' 0 2 ≠ 0b00#2 → (widthOfOp op).bits = 8 * 2 ^ (op.extractLsb' 0 2).toNat)

/-- The decoder rejects exactly the bundles with a reserved `op`, and names it (30_encoding.md R68). -/
def Obligations.DecodeRejectsExactlyReservedOps : Prop :=
  ∀ (req : ReqBundle) (op : OpField),
    decode req = .reservedOp op ↔
      req.extractLsb' 132 4 = op ∧ op ∈ [0x0#4, 0x4#4, 0xB#4, 0xC#4, 0xD#4, 0xE#4, 0xF#4]

/-- Words of 95_test_vectors.md decode to the requests they are written for. -/
def Obligations.SpecWordsDecode : Prop :=
  decode 0x1fdeadbeef00001234aaaaaaaaaaaaaaaa#136 =
    .instr (.fenc16 ⟨15#4, 0xdeadbeef00001234#64, 0xaaaaaaaaaaaaaaaa#64⟩) ∧
  decode 0x610000000000000000ffffffff11000000#136 = .instr (.fdec32 ⟨1#4, 0#64, 0xffffffff11000000#64⟩) ∧
  decode 0x880000000000000025ffffffffffffffff#136 = .instr (.venc ⟨8#4, 37#64, 0xffffffffffffffff#64⟩) ∧
  decode 0x9400000000000000009d7f3e7d00000000#136 = .instr (.vdec ⟨4#4, 0#64, 0x9d7f3e7d00000000#64⟩) ∧
  decode 0xaf00000000000000252500000000000000#136 = .instr (.vcanon ⟨15#4, 37#64, 0x2500000000000000#64⟩) ∧
  decode 0xf800000000000000252500000000000000#136 = .reservedOp 0xF#4

/-- The response bundle holds its fields where R66 puts them, and each 135-bit pattern is one response and back
(30_encoding.md R66). -/
def Obligations.ResponseBundleRoundTrips : Prop :=
  (∀ r : Rsp, r.pack.extractLsb' 133 2 = r.err.code ∧ r.pack.getLsbD 132 = r.canon ∧ r.pack.extractLsb' 128 4 = r.len ∧
    r.pack.extractLsb' 64 64 = r.val ∧ r.pack.extractLsb' 0 64 = r.bytes) ∧
  (∀ r : Rsp, Rsp.unpack r.pack = r) ∧ (∀ b : RspBundle, (Rsp.unpack b).pack = b)

/-- A legal assembler line has the encoding R76 gives it: the named op; the written numbers in their fields, an omitted
one zero; the listed bytes in lanes 0 upward, omitted lanes zero; and 34 hexadecimal digits, `op` first, that read back
as the bundle. Its RSVD lines may carry `len`, `val` and `bytes`, which R76's syntax line does not show: that is the
model's reading, DEDUCED in log 11, and no clause of the rule. -/
def Obligations.AssemblerLineEncoding : Prop :=
  ∀ a : AsmLine, a.wellFormed = true →
    (a.assemble.extractLsb' 132 4 = a.op.opcode ∧
      (a.assemble.extractLsb' 128 4).toNat = a.len.getD 0 ∧
      (a.assemble.extractLsb' 64 64).toNat = a.val.getD 0 ∧
      (∀ k : Fin 8, (lane (a.assemble.extractLsb' 0 64) k).toNat = (a.bytes.getD []).getD k.val 0)) ∧
    (decode a.assemble = .instr (.fenc16 a.operands) ↔ a.op = .fenc16) ∧
    (decode a.assemble = .instr (.fenc32 a.operands) ↔ a.op = .fenc32) ∧
    (decode a.assemble = .instr (.fenc64 a.operands) ↔ a.op = .fenc64) ∧
    (decode a.assemble = .instr (.fdec16 a.operands) ↔ a.op = .fdec16) ∧
    (decode a.assemble = .instr (.fdec32 a.operands) ↔ a.op = .fdec32) ∧
    (decode a.assemble = .instr (.fdec64 a.operands) ↔ a.op = .fdec64) ∧
    (decode a.assemble = .instr (.venc a.operands) ↔ a.op = .venc) ∧
    (decode a.assemble = .instr (.vdec a.operands) ↔ a.op = .vdec) ∧
    (decode a.assemble = .instr (.vcanon a.operands) ↔ a.op = .vcanon) ∧
    (∀ op : Nat, a.op = .rsvd op → decode a.assemble = .reservedOp (BitVec.ofNat 4 op)) ∧
    (reqHexDigits a.assemble).length = 34 ∧ (reqHexDigits a.assemble).head? = some a.op.opcode ∧
    (reqHexDigits a.assemble).foldl (fun acc d => 16 * acc + d.toNat) 0 = a.assemble.toNat

/-! ## One clock edge -/

/-- A valid request on the pins, with no reset, is performed: the step is `exec` of the decoded operation on the state
with that sample taken (10_state.md R24, 30_encoding.md R67). The sample leaves the schedule (log 1) and, before the
first reset edge only, joins what the unspecified stages may depend on (log 4). -/
def Obligations.StepRunsDecodedInstruction : Prop :=
  ∀ (s : State) (req : ReqBundle) (i : Instr),
    s.inputs.head? = some ⟨false, true, req⟩ → decode req = .instr i →
    step s = exec i { s with inputs := s.inputs.tail, phase := s.phase.record ⟨false, true, req⟩ }

/-- A valid request with a reserved op gets `err = 11` with all other fields zero, whatever else the request holds
(60_exceptions.md R132). -/
def Obligations.ReservedOpAnswersIllegalOp : Prop :=
  Err.code .illegalOp = 0b11#2 ∧
  ∀ (s : State) (req : ReqBundle), s.phase = .ready →
    s.inputs.head? = some ⟨false, true, req⟩ →
    req.extractLsb' 132 4 ∈ [0x0#4, 0x4#4, 0xB#4, 0xC#4, 0xD#4, 0xE#4, 0xF#4] →
    step s = .next { s1 := ⟨true, ⟨.illegalOp, false, 0#4, 0#64, 0#64⟩⟩
                     later := (s.s1 :: s.later).dropLast
                     inputs := s.inputs.tail
                     phase := .ready }

/-- With `in_valid = 0` all of `REQ` is ignored and the edge loads an empty stage; a request may come at every edge: it
is taken in every state from the first reset edge on, whatever the pipeline holds (30_encoding.md R65). -/
def Obligations.IssueRule : Prop :=
  (∀ (s : State) (req : ReqBundle), s.phase = .ready →
    s.inputs.head? = some ⟨false, false, req⟩ →
    step s = .next { s1 := ⟨false, ⟨.ok, false, 0#4, 0#64, 0#64⟩⟩
                     later := (s.s1 :: s.later).dropLast
                     inputs := s.inputs.tail
                     phase := .ready }) ∧
  (∀ (s : State) (req : ReqBundle), s.phase = .ready →
    s.inputs.head? = some ⟨false, true, req⟩ →
    ∃ t, step s = .next t ∧ t.s1 = ⟨true, execRsp req⟩)

/-- The state update of 10_state.md R24, stage by stage (`stages[k-1]` is `S[k]`): with `rst` every stage is cleared;
otherwise, from the first reset edge on (R28), `S[1]` takes `Exec(req)` or the empty stage, and each later stage its
predecessor's old value. -/
def Obligations.StateUpdatePerStage : Prop :=
  ∀ (s : State) (e : EdgeInput), s.inputs.head? = some e →
    ∃ t, step s = .next t ∧ t.stages.length = s.stages.length ∧ t.inputs = s.inputs.tail ∧
      (e.rst = true → ∀ k, k < s.stages.length → t.stages[k]? = some ⟨false, ⟨.ok, false, 0#4, 0#64, 0#64⟩⟩) ∧
      (e.rst = false → s.phase = .ready →
        (e.inValid = true → t.stages[0]? = some ⟨true, execRsp e.req⟩) ∧
        (e.inValid = false → t.stages[0]? = some ⟨false, ⟨.ok, false, 0#4, 0#64, 0#64⟩⟩) ∧
        (∀ k, k + 1 < s.stages.length → t.stages[k + 1]? = s.stages[k]?))

/-- A reset edge sets every stage to the reset values, and nothing is left of a request in flight or presented at that
edge: two machines that differ only in those go on alike (70_reset_and_hazards.md R161). -/
def Obligations.ResetEdgeDiscardsEverything : Prop :=
  (∀ (s : State) (e : EdgeInput), s.inputs.head? = some e → e.rst = true →
    ∃ t, step s = .next t ∧ t.stages = List.replicate s.stages.length ⟨false, ⟨.ok, false, 0#4, 0#64, 0#64⟩⟩ ∧
      t.inputs = s.inputs.tail ∧ t.phase = .ready) ∧
  (∀ (s s' : State) (e e' : EdgeInput), s.inputs.head? = some e → s'.inputs.head? = some e' →
    e.rst = true → e'.rst = true → s.lat = s'.lat → s.inputs.tail = s'.inputs.tail →
    ∀ k, Host.Core.run core (k + 1) s = Host.Core.run core (k + 1) s')

/-- From power-up, for every latency and every power-up: as long as no edge has `rst = 1` the stages stay unspecified,
after every edge; the first such edge gives the reset values, with every output zero; and `out_valid` is then 0 until a
valid request has had `LAT` edges to flow through (10_state.md R28, 70_reset_and_hazards.md R162). The unspecified bits
are the free values of log 4, which nothing constrains. -/
def Obligations.OneResetEdgeAfterPowerUp : Prop :=
  ∀ (lat powerUp : Nat) (before rest : List EdgeInput) (v : Bool) (req : ReqBundle) (s : State), 1 ≤ lat →
    s = State.powerUp lat powerUp (before ++ ⟨true, v, req⟩ :: rest) → (∀ e ∈ before, e.rst = false) →
    (∀ k ≤ before.length, ∃ u, Host.Core.run core k s = .next u ∧
      u.stages = (List.range lat).map fun j => unspecifiedStage powerUp (before.take k).reverse (j + 1)) ∧
    ∃ t, Host.Core.run core (before.length + 1) s = .next t ∧
      t = { State.resetWith lat with inputs := rest } ∧
      t.stages = List.replicate lat ⟨false, ⟨.ok, false, 0#4, 0#64, 0#64⟩⟩ ∧
      t.outputs = ⟨false, 0b00#2, false, 0#4, 0#64, 0#64⟩ ∧
      ∀ j, (∀ e ∈ rest.take (j + 1 - lat), e.inValid = false ∨ e.rst = true) →
        ∃ u, Host.Core.run core j t = .next u ∧ u.outputs.outValid = false

/-- Before the first reset edge no edge without reset makes a stage definite: after every operation, and after every
step whatever is on the pins, each stage is the free value of log 4 for the samples so far, and the machine is still to
be reset (10_state.md R28, 70_reset_and_hazards.md R162). -/
def Obligations.UnresetEdgeLeavesStagesUnspecified : Prop :=
  (∀ (i : Instr) (s : State) (powerUp : Nat) (samples : List EdgeInput), s.phase = .unreset powerUp samples →
    ∃ t, exec i s = .next t ∧ t.inputs = s.inputs ∧ t.phase = s.phase ∧
      t.stages = (List.range s.stages.length).map fun k => unspecifiedStage powerUp samples (k + 1)) ∧
  (∀ (s : State) (e : EdgeInput) (powerUp : Nat) (samples : List EdgeInput), s.phase = .unreset powerUp samples →
    s.inputs.head? = some e → e.rst = false →
    ∃ t, step s = .next t ∧ t.inputs = s.inputs.tail ∧ t.phase = .unreset powerUp (e :: samples) ∧
      t.stages = (List.range s.stages.length).map fun k => unspecifiedStage powerUp (e :: samples) (k + 1))

/-- Only an edge with `rst = 1` ends the time in which the stages are unspecified, and nothing brings it back (10_state.md
R28, 70_reset_and_hazards.md R162). That the state remembers this is the model's own form (log 4). -/
def Obligations.ReadyExactlyFromFirstResetEdge : Prop :=
  ∀ (s t : State) (e : EdgeInput), s.inputs.head? = some e → step s = .next t →
    (t.phase = .ready ↔ e.rst = true ∨ s.phase = .ready)

/-- Every step answers a next state, and so does every run, in a machine of the same latency: `Exec` is total, no error
stops the machine, no stage stalls (30_encoding.md R67, 60_exceptions.md R134). -/
def Obligations.EveryStepAnswersNext : Prop :=
  ∀ s : State, StepsOn s ∧ ∀ k : Nat, ∃ t, Host.Core.run core k s = .next t ∧ t.lat = s.lat

/-- The outputs are the fields of `S[LAT]`, and no sample on the pins reaches them before an edge (10_state.md R25). -/
def Obligations.OutputsAreLastStage : Prop :=
  ∀ (s : State) (st : Stage), s.stages[s.lat - 1]? = some st →
    s.outputs = ⟨st.v, st.r.err.code, st.r.canon, st.r.len, st.r.val, st.r.bytes⟩ ∧
    ∀ inputs', ({ s with inputs := inputs' } : State).outputs = s.outputs

/-! ## Fixed-width operations -/

/-- FENC16 (40_fixed_width.md R82): the selector, and the response to every request in every state from
the first reset edge on. -/
def Obligations.Fenc16Result : Prop :=
  (∀ req : ReqBundle, req.extractLsb' 132 4 = 0b0001#4 →
    decode req = .instr (.fenc16 ⟨req.extractLsb' 128 4, req.extractLsb' 64 64, req.extractLsb' 0 64⟩)) ∧
  ∀ (o : Operands) (s : State), s.phase = .ready →
    exec (.fenc16 o) s = .next
      { s1 := ⟨true, ⟨.ok, false, 2#4, 0#64, o.val.extractLsb' 8 8 ++ o.val.extractLsb' 0 8 ++ 0#48⟩⟩
        later := (s.s1 :: s.later).dropLast
        inputs := s.inputs
        phase := .ready }

/-- FENC32 (R83). -/
def Obligations.Fenc32Result : Prop :=
  (∀ req : ReqBundle, req.extractLsb' 132 4 = 0b0010#4 →
    decode req = .instr (.fenc32 ⟨req.extractLsb' 128 4, req.extractLsb' 64 64, req.extractLsb' 0 64⟩)) ∧
  ∀ (o : Operands) (s : State), s.phase = .ready →
    exec (.fenc32 o) s = .next
      { s1 := ⟨true, ⟨.ok, false, 4#4, 0#64, o.val.extractLsb' 0 32 ++ 0#32⟩⟩
        later := (s.s1 :: s.later).dropLast
        inputs := s.inputs
        phase := .ready }

/-- FENC64 (R84). -/
def Obligations.Fenc64Result : Prop :=
  (∀ req : ReqBundle, req.extractLsb' 132 4 = 0b0011#4 →
    decode req = .instr (.fenc64 ⟨req.extractLsb' 128 4, req.extractLsb' 64 64, req.extractLsb' 0 64⟩)) ∧
  ∀ (o : Operands) (s : State), s.phase = .ready →
    exec (.fenc64 o) s = .next
      { s1 := ⟨true, ⟨.ok, false, 8#4, 0#64, o.val⟩⟩
        later := (s.s1 :: s.later).dropLast
        inputs := s.inputs
        phase := .ready }

/-- FDEC16 (R86). -/
def Obligations.Fdec16Result : Prop :=
  (∀ req : ReqBundle, req.extractLsb' 132 4 = 0b0101#4 →
    decode req = .instr (.fdec16 ⟨req.extractLsb' 128 4, req.extractLsb' 64 64, req.extractLsb' 0 64⟩)) ∧
  ∀ (o : Operands) (s : State), s.phase = .ready →
    exec (.fdec16 o) s = .next
      { s1 := ⟨true, ⟨.ok, false, 2#4, 0#48 ++ (lane o.bytes 0 ++ lane o.bytes 1), 0#64⟩⟩
        later := (s.s1 :: s.later).dropLast
        inputs := s.inputs
        phase := .ready }

/-- FDEC32 (R87). -/
def Obligations.Fdec32Result : Prop :=
  (∀ req : ReqBundle, req.extractLsb' 132 4 = 0b0110#4 →
    decode req = .instr (.fdec32 ⟨req.extractLsb' 128 4, req.extractLsb' 64 64, req.extractLsb' 0 64⟩)) ∧
  ∀ (o : Operands) (s : State), s.phase = .ready →
    exec (.fdec32 o) s = .next
      { s1 := ⟨true, ⟨.ok, false, 4#4, 0#32 ++ o.bytes.extractLsb' 32 32, 0#64⟩⟩
        later := (s.s1 :: s.later).dropLast
        inputs := s.inputs
        phase := .ready }

/-- FDEC64 (R88). -/
def Obligations.Fdec64Result : Prop :=
  (∀ req : ReqBundle, req.extractLsb' 132 4 = 0b0111#4 →
    decode req = .instr (.fdec64 ⟨req.extractLsb' 128 4, req.extractLsb' 64 64, req.extractLsb' 0 64⟩)) ∧
  ∀ (o : Operands) (s : State), s.phase = .ready →
    exec (.fdec64 o) s = .next
      { s1 := ⟨true, ⟨.ok, false, 8#4, o.bytes, 0#64⟩⟩
        later := (s.s1 :: s.later).dropLast
        inputs := s.inputs
        phase := .ready }

/-- The pseudocode of FENC (R81) and FDEC (R85), lane by lane: `BufWrite(i, v[W-1-8i : W-8-8i])` for `i = 0 … W/8-1` on
`ZERO`, and the concatenation of `BufRead(0), …, BufRead(W/8-1)`. -/
def Obligations.FixedWidthPseudocode : Prop :=
  ∀ (enc dec : Operands → Instr) (w : Nat),
    (enc, dec, w) ∈ [(Instr.fenc16, Instr.fdec16, 16), (Instr.fenc32, Instr.fdec32, 32), (Instr.fenc64, Instr.fdec64, 64)] →
    ∀ (o : Operands) (s : State),
      exec (enc o) s = .next (s.respond
        { ((List.finRange 8).filter fun i => decide (8 * i.val < w)).foldl
            (fun r i => r.bufWrite i (o.val.extractLsb' (w - 8 - 8 * i.val) 8)) Rsp.zero with
          len := BitVec.ofNat 4 (w / 8) }) ∧
      exec (dec o) s = .next (s.respond
        { Rsp.zero with
          len := BitVec.ofNat 4 (w / 8)
          val := BitVec.ofNat 64 (((List.finRange 8).filter fun i => decide (8 * i.val < w)).foldl
            (fun acc i => 256 * acc + (bufRead o i).toNat) 0) })

/-- Fixed-width byte order (20_memory.md R43): for each width, byte `i` of the encoding, lane `i`, is
`value[W-1-8i : W-8-8i]`, in both directions. -/
def Obligations.FixedWidthBytesAreBigEndian : Prop :=
  ∀ (enc dec : Operands → Instr) (w : Nat),
    (enc, dec, w) ∈ [(Instr.fenc16, Instr.fdec16, 16), (Instr.fenc32, Instr.fdec32, 32), (Instr.fenc64, Instr.fdec64, 64)] →
    ∀ (o : Operands) (s : State) (i : Fin 8), s.phase = .ready → 8 * i.val < w →
      (∃ t, exec (enc o) s = .next t ∧ lane t.s1.r.bytes i = o.val.extractLsb' (w - 8 - 8 * i.val) 8) ∧
      (∃ t, exec (dec o) s = .next t ∧ t.s1.r.val.extractLsb' (w - 8 - 8 * i.val) 8 = lane o.bytes i)

/-- The round-trip laws of 40_fixed_width.md R89: decoding an encoding of a W-bit value gives the value; encoding a
decoded integer gives back the lane vector with lanes W/8 … 7 cleared. -/
def Obligations.FixedWidthRoundTrips : Prop :=
  ∀ (enc dec : Operands → Instr) (w : Nat),
    (enc, dec, w) ∈ [(Instr.fenc16, Instr.fdec16, 16), (Instr.fenc32, Instr.fdec32, 32), (Instr.fenc64, Instr.fdec64, 64)] →
    (∀ (o o' : Operands) (s s' t t' : State), s.phase = .ready → s'.phase = .ready → o.val.toNat < 2 ^ w →
      exec (enc o) s = .next t → o'.bytes = t.s1.r.bytes → exec (dec o') s' = .next t' → t'.s1.r.val = o.val) ∧
    (∀ (o o' : Operands) (s s' t t' : State), s.phase = .ready → s'.phase = .ready →
      exec (dec o) s = .next t → o'.val = t.s1.r.val → exec (enc o') s' = .next t' →
      ∀ k : Fin 8, lane t'.s1.r.bytes k = if 8 * k.val < w then lane o.bytes k else 0#8)

/-- Mixed widths over one lane vector (20_memory.md R45). -/
def Obligations.MixedWidthsShareLanes : Prop :=
  (∀ (o o' o'' : Operands) (s s' s'' t t' t'' : State), s.phase = .ready → s'.phase = .ready → s''.phase = .ready →
    o'.bytes = o.bytes → o''.bytes = o.bytes →
    exec (.fdec16 o) s = .next t → exec (.fdec32 o') s' = .next t' → exec (.fdec64 o'') s'' = .next t'' →
    t.s1.r.val.toNat = (o.bytes.extractLsb' 48 16).toNat ∧
    t'.s1.r.val.toNat = (o.bytes.extractLsb' 32 32).toNat ∧
    t''.s1.r.val = o.bytes ∧
    t.s1.r.val = t''.s1.r.val >>> 48 ∧ t'.s1.r.val = t''.s1.r.val >>> 32) ∧
  (∀ (o o' : Operands) (s s' t t' : State), s.phase = .ready → s'.phase = .ready → o'.val = o.val <<< 48 →
    exec (.fenc16 o) s = .next t → exec (.fenc64 o') s' = .next t' →
    lane t.s1.r.bytes 0 = lane t'.s1.r.bytes 0 ∧ lane t.s1.r.bytes 1 = lane t'.s1.r.bytes 1)

/-! ## Varint operations -/

/-- VENC (41_varint.md R105, with the byte layouts of 30_encoding.md R74): the selector, and the response to every
request in every state from the first reset edge on. The range check comes first, then the capacity check against the
tier the value selects. -/
def Obligations.VencResult : Prop :=
  (∀ req : ReqBundle, req.extractLsb' 132 4 = 0b1000#4 →
    decode req = .instr (.venc ⟨req.extractLsb' 128 4, req.extractLsb' 64 64, req.extractLsb' 0 64⟩)) ∧
  ∀ (o : Operands) (s : State), s.phase = .ready →
    exec (.venc o) s = .next
      { s1 := ⟨true,
          if 2 ^ 62 ≤ o.val.toNat then ⟨.range, false, 0#4, 0#64, 0#64⟩
          else if o.val.toNat < 2 ^ 6 then
            if min o.len.toNat 8 < 1 then ⟨.bufShort, false, 0#4, 0#64, 0#64⟩
            else ⟨.ok, false, 1#4, 0#64, 0b00#2 ++ o.val.extractLsb' 0 6 ++ 0#56⟩
          else if o.val.toNat < 2 ^ 14 then
            if min o.len.toNat 8 < 2 then ⟨.bufShort, false, 0#4, 0#64, 0#64⟩
            else ⟨.ok, false, 2#4, 0#64, 0b01#2 ++ o.val.extractLsb' 0 14 ++ 0#48⟩
          else if o.val.toNat < 2 ^ 30 then
            if min o.len.toNat 8 < 4 then ⟨.bufShort, false, 0#4, 0#64, 0#64⟩
            else ⟨.ok, false, 4#4, 0#64, 0b10#2 ++ o.val.extractLsb' 0 30 ++ 0#32⟩
          else
            if min o.len.toNat 8 < 8 then ⟨.bufShort, false, 0#4, 0#64, 0#64⟩
            else ⟨.ok, false, 8#4, 0#64, 0b11#2 ++ o.val.extractLsb' 0 62⟩⟩
        later := (s.s1 :: s.later).dropLast
        inputs := s.inputs
        phase := .ready }

/-- VDEC (41_varint.md R110, with the values of R111): the selector, and the response to every request in every
state from the first reset edge on. -/
def Obligations.VdecResult : Prop :=
  (∀ req : ReqBundle, req.extractLsb' 132 4 = 0b1001#4 →
    decode req = .instr (.vdec ⟨req.extractLsb' 128 4, req.extractLsb' 64 64, req.extractLsb' 0 64⟩)) ∧
  ∀ (o : Operands) (s : State), s.phase = .ready →
    exec (.vdec o) s = .next
      { s1 := ⟨true,
          if min o.len.toNat 8 < 1 then ⟨.bufShort, false, 0#4, 0#64, 0#64⟩
          else if o.bytes.extractLsb' 62 2 = 0b00#2 then
            ⟨.ok, false, 1#4, 0#58 ++ (lane o.bytes 0).extractLsb' 0 6, 0#64⟩
          else if o.bytes.extractLsb' 62 2 = 0b01#2 then
            if min o.len.toNat 8 < 2 then ⟨.bufShort, false, 0#4, 0#64, 0#64⟩
            else ⟨.ok, false, 2#4, 0#50 ++ ((lane o.bytes 0).extractLsb' 0 6 ++ lane o.bytes 1), 0#64⟩
          else if o.bytes.extractLsb' 62 2 = 0b10#2 then
            if min o.len.toNat 8 < 4 then ⟨.bufShort, false, 0#4, 0#64, 0#64⟩
            else ⟨.ok, false, 4#4,
              0#34 ++ ((lane o.bytes 0).extractLsb' 0 6 ++ lane o.bytes 1 ++ lane o.bytes 2 ++ lane o.bytes 3), 0#64⟩
          else
            if min o.len.toNat 8 < 8 then ⟨.bufShort, false, 0#4, 0#64, 0#64⟩
            else ⟨.ok, false, 8#4,
              0#2 ++ ((lane o.bytes 0).extractLsb' 0 6 ++ lane o.bytes 1 ++ lane o.bytes 2 ++ lane o.bytes 3 ++
                lane o.bytes 4 ++ lane o.bytes 5 ++ lane o.bytes 6 ++ lane o.bytes 7), 0#64⟩⟩
        later := (s.s1 :: s.later).dropLast
        inputs := s.inputs
        phase := .ready }

/-- VCANON (41_varint.md R112): the selector, and the response to every request in every state from the first reset
edge on, the verdict by the source's concrete ranges. -/
def Obligations.VcanonResult : Prop :=
  (∀ req : ReqBundle, req.extractLsb' 132 4 = 0b1010#4 →
    decode req = .instr (.vcanon ⟨req.extractLsb' 128 4, req.extractLsb' 64 64, req.extractLsb' 0 64⟩)) ∧
  ∀ (o : Operands) (s : State), s.phase = .ready →
    exec (.vcanon o) s = .next
      { s1 := ⟨true, ⟨.ok,
          decide ((o.len = 1#4 ∧ o.val.toNat ≤ 63) ∨
            (o.len = 2#4 ∧ 64 ≤ o.val.toNat ∧ o.val.toNat ≤ 0x3FFF) ∨
            (o.len = 4#4 ∧ 0x4000 ≤ o.val.toNat ∧ o.val.toNat ≤ 0x3FFFFFFF) ∨
            (o.len = 8#4 ∧ 0x40000000 ≤ o.val.toNat ∧ o.val.toNat ≤ 0x3FFFFFFFFFFFFFFF)),
          if 2 ^ 62 ≤ o.val.toNat then 0#4
          else if o.val.toNat < 2 ^ 6 then 1#4
          else if o.val.toNat < 2 ^ 14 then 2#4
          else if o.val.toNat < 2 ^ 30 then 4#4
          else 8#4,
          0#64, 0#64⟩⟩
        later := (s.s1 :: s.later).dropLast
        inputs := s.inputs
        phase := .ready }

/-- `MinLen` (41_varint.md R102): the shortest length whose usable bits hold the value, and the priority select over
the value's bits that the dispatcher computes. -/
def Obligations.MinLenIsShortestAndPrioritySelect : Prop :=
  ∀ v : Word, v.toNat < 2 ^ 62 →
    v.toNat < 2 ^ (8 * (minLen v).len - 2) ∧
    (∀ l ∈ [1, 2, 4, 8], v.toNat < 2 ^ (8 * l - 2) → (minLen v).len ≤ l) ∧
    (minLen v).len =
      if v.extractLsb' 30 32 ≠ 0#32 then 8
      else if v.extractLsb' 14 16 ≠ 0#16 then 4
      else if v.extractLsb' 6 8 ≠ 0#8 then 2
      else 1

/-- `MinLen` is a non-decreasing step function with the boundary pairs of 41_varint.md R103. -/
def Obligations.MinLenMonotoneWithBoundaries : Prop :=
  (∀ v w : Word, v.toNat ≤ w.toNat → w.toNat < 2 ^ 62 → (minLen v).len ≤ (minLen w).len) ∧
  (minLen 63#64).len = 1 ∧ (minLen 64#64).len = 2 ∧ (minLen 0x3FFF#64).len = 2 ∧ (minLen 0x4000#64).len = 4 ∧
  (minLen 0x3FFFFFFF#64).len = 4 ∧ (minLen 0x40000000#64).len = 8 ∧ (minLen 0x3FFFFFFFFFFFFFFF#64).len = 8

/-- Canonical round trip (41_varint.md R113). -/
def Obligations.CanonicalRoundTrip : Prop :=
  ∀ (o : Operands) (s t : State), s.phase = .ready → o.len = 8#4 → o.val.toNat < 2 ^ 62 → exec (.venc o) s = .next t →
    t.s1.r.err = .ok ∧ t.s1.r.len.toNat = (minLen o.val).len ∧
    ∀ (o' : Operands) (s' t' : State), s'.phase = .ready →
      o'.len = t.s1.r.len → o'.bytes = t.s1.r.bytes → exec (.vdec o') s' = .next t' →
      t'.s1.r = ⟨.ok, false, t.s1.r.len, o.val, 0#64⟩ ∧
      (∀ (o'' : Operands) (s'' t'' : State), s''.phase = .ready → o''.len = t'.s1.r.len → o''.val = t'.s1.r.val →
        exec (.vcanon o'') s'' = .next t'' → t''.s1.r.canon = true) ∧
      (∀ (o'' : Operands) (s'' t'' : State), s''.phase = .ready → o''.len = 8#4 → o''.val = t'.s1.r.val →
        exec (.venc o'') s'' = .next t'' → t''.s1.r.bytes = t.s1.r.bytes ∧ t''.s1.r.len = t.s1.r.len)

/-- Decoding a longer-than-minimal encoding (41_varint.md R114): lanes `0 … L'-1` hold `{LenTag(L'), v}`, the other lanes
anything; the decode gives the value and the actual length, and the check says not canonical. -/
def Obligations.NonCanonicalDecode : Prop :=
  ∀ (v : Word) (tag L : Nat) (o : Operands) (s t : State), s.phase = .ready → v.toNat < 2 ^ 62 →
    (tag, L) ∈ [(0, 1), (1, 2), (2, 4), (3, 8)] → (minLen v).len < L →
    o.bytes.toNat / 2 ^ (64 - 8 * L) = tag * 2 ^ (8 * L - 2) + v.toNat → L ≤ o.len.toNat →
    exec (.vdec o) s = .next t →
      t.s1.r = ⟨.ok, false, BitVec.ofNat 4 L, v, 0#64⟩ ∧
      ∀ (o' : Operands) (s' t' : State), s'.phase = .ready →
        o'.len = BitVec.ofNat 4 L → o'.val = v → exec (.vcanon o') s' = .next t' →
        t'.s1.r.canon = false

/-- For every (value, length) that VDEC returns, the three forms of the source's definition of "canonical" agree with
the verdict of VCANON on that pair (41_varint.md R116, 90_conflicts.md C3). -/
def Obligations.CanonicalFormsAgreeOnDecoded : Prop :=
  ∀ (o o' : Operands) (s s' t t' : State), s.phase = .ready → s'.phase = .ready →
    exec (.vdec o) s = .next t → t.s1.r.err = .ok → o'.len = t.s1.r.len → o'.val = t.s1.r.val →
    exec (.vcanon o') s' = .next t' →
      t.s1.r.val.toNat < 2 ^ (8 * t.s1.r.len.toNat - 2) ∧
      (t'.s1.r.canon = true ↔ (minLen t.s1.r.val).len = t.s1.r.len.toNat) ∧
      (t'.s1.r.canon = true ↔ t.s1.r.len = 1#4 ∨ 2 ^ (8 * (t.s1.r.len.toNat / 2) - 2) ≤ t.s1.r.val.toNat) ∧
      (t'.s1.r.canon = true ↔
        (t.s1.r.len = 1#4 ∧ t.s1.r.val.toNat ≤ 63) ∨
        (t.s1.r.len = 2#4 ∧ 64 ≤ t.s1.r.val.toNat ∧ t.s1.r.val.toNat ≤ 0x3FFF) ∨
        (t.s1.r.len = 4#4 ∧ 0x4000 ≤ t.s1.r.val.toNat ∧ t.s1.r.val.toNat ≤ 0x3FFFFFFF) ∨
        (t.s1.r.len = 8#4 ∧ 0x40000000 ≤ t.s1.r.val.toNat ∧ t.s1.r.val.toNat ≤ 0x3FFFFFFFFFFFFFFF))

/-- The canonical encoding of a value is unique, and it is what VENC emits: bytes that decode to the value with a
canonical verdict are, lane for lane, VENC's bytes (00_scope.md R14, 41_varint.md R105). -/
def Obligations.CanonicalEncodingIsUnique : Prop :=
  ∀ (o o' o'' : Operands) (s s' s'' t t' t'' : State), s.phase = .ready → s'.phase = .ready → s''.phase = .ready →
    exec (.vdec o) s = .next t → t.s1.r.err = .ok →
    o'.len = t.s1.r.len → o'.val = t.s1.r.val → exec (.vcanon o') s' = .next t' → t'.s1.r.canon = true →
    o''.len = 8#4 → o''.val = t.s1.r.val → exec (.venc o'') s'' = .next t'' →
      t''.s1.r.err = .ok ∧ t''.s1.r.len = t.s1.r.len ∧
      ∀ k : Fin 8, k.val < t.s1.r.len.toNat → lane t''.s1.r.bytes k = lane o.bytes k

/-! ## Errors -/

/-- The error codes and exactly their causes (60_exceptions.md R130). -/
def Obligations.ErrorCodesExactlyByCause : Prop :=
  (∀ (i : Instr) (s t : State), s.phase = .ready → exec i s = .next t →
    (t.s1.r.err.code = 0b01#2 ↔
      (∃ o, i = .vdec o ∧ (min o.len.toNat 8 = 0 ∨ min o.len.toNat 8 < 2 ^ (o.bytes.extractLsb' 62 2).toNat)) ∨
      (∃ o, i = .venc o ∧ o.val.toNat < 2 ^ 62 ∧ min o.len.toNat 8 < (minLen o.val).len)) ∧
    (t.s1.r.err.code = 0b10#2 ↔ ∃ o, i = .venc o ∧ 2 ^ 62 ≤ o.val.toNat) ∧
    t.s1.r.err.code ≠ 0b11#2) ∧
  (∀ (s t : State) (req : ReqBundle), s.phase = .ready → s.inputs.head? = some ⟨false, true, req⟩ → step s = .next t →
    (t.s1.r.err.code = 0b11#2 ↔ req.extractLsb' 132 4 ∈ [0x0#4, 0x4#4, 0xB#4, 0xC#4, 0xD#4, 0xE#4, 0xF#4]))

/-- An error response has its code and every other field zero, so no byte is to be stored (60_exceptions.md R131). -/
def Obligations.ErrorResponseIsOtherwiseZero : Prop :=
  (∀ e : Err, (raise e).pack = e.code ++ 0#133) ∧
  ∀ (s t : State) (req : ReqBundle), s.phase = .ready → s.inputs.head? = some ⟨false, true, req⟩ → step s = .next t →
    t.s1.r.err ≠ .ok →
      t.s1.r = ⟨t.s1.r.err, false, 0#4, 0#64, 0#64⟩ ∧ t.s1.r.pack = t.s1.r.err.code ++ 0#133 ∧ t.s1.r.storedBytes = []

/-- One error per request, in the order of 60_exceptions.md R133: a reserved op before everything; for VENC the range
check before the capacity check, `len = 0` included; for VDEC both causes give the same response. -/
def Obligations.ErrorPriority : Prop :=
  (∀ (s t : State) (req : ReqBundle), s.phase = .ready → s.inputs.head? = some ⟨false, true, req⟩ →
    req.extractLsb' 132 4 ∈ [0x0#4, 0x4#4, 0xB#4, 0xC#4, 0xD#4, 0xE#4, 0xF#4] → step s = .next t →
    t.s1.r.err.code = 0b11#2) ∧
  (∀ (o : Operands) (s t : State), s.phase = .ready →
    2 ^ 62 ≤ o.val.toNat → exec (.venc o) s = .next t → t.s1.r.err.code = 0b10#2) ∧
  (∀ (o o' : Operands) (s s' t t' : State), s.phase = .ready → s'.phase = .ready → o.len = 0#4 → 1 ≤ o'.len.toNat →
    min o'.len.toNat 8 < 2 ^ (o'.bytes.extractLsb' 62 2).toNat →
    exec (.vdec o) s = .next t → exec (.vdec o') s' = .next t' → t.s1.r = t'.s1.r ∧ t.s1.r.err.code = 0b01#2)

/-- The output window (20_memory.md R42): after an encode, lanes `0 … len-1` are what the caller stores, in buffer
order, and lanes `len … 7` are zero; on an error `len = 0` and nothing is stored. -/
def Obligations.EncodeOutputWindow : Prop :=
  ∀ (i : Instr) (o : Operands) (s t : State), s.phase = .ready → i ∈ [Instr.fenc16 o, .fenc32 o, .fenc64 o, .venc o] →
    exec i s = .next t →
    (t.s1.r.err = .ok →
      t.s1.r.storedBytes.length = t.s1.r.len.toNat ∧
      (∀ k : Fin 8, k.val < t.s1.r.len.toNat → t.s1.r.storedBytes[k.val]? = some (lane t.s1.r.bytes k)) ∧
      (∀ k : Fin 8, t.s1.r.len.toNat ≤ k.val → lane t.s1.r.bytes k = 0#8)) ∧
    (t.s1.r.err ≠ .ok → t.s1.r.len = 0#4 ∧ t.s1.r.bytes = 0#64 ∧ t.s1.r.storedBytes = [])

/-! ## What a request depends on and what it leaves alone -/

/-- The frame of all nine operations, which have one shape: only `S[1]` gets a new content, which is a valid response;
every later stage takes its predecessor's; the input schedule, the latency and the phase stay (10_state.md R24). -/
def Obligations.ExecFrame : Prop :=
  ∀ (i : Instr) (s t : State), s.phase = .ready → exec i s = .next t →
    t.inputs = s.inputs ∧ t.lat = s.lat ∧ t.phase = s.phase ∧ t.s1.v = true ∧
    (∀ k, k + 1 < s.lat → t.stages[k + 1]? = s.stages[k]?) ∧
    t.outputs.outValid = (if s.lat = 1 then true else (s.stages[s.lat - 2]?.map Stage.v).getD false)

/-- Two requests with equal operation and operands get equal responses, whatever came before (20_memory.md R49,
70_reset_and_hazards.md R165); and an error changes nothing that a successful request or an idle edge would not
(60_exceptions.md R134): all of the state but `S[1]` is the same. -/
def Obligations.ResponsesIndependentOfHistory : Prop :=
  (∀ (i : Instr) (s s' : State), s.phase = .ready → s'.phase = .ready →
    ∃ t t', exec i s = .next t ∧ exec i s' = .next t' ∧ t.s1 = t'.s1) ∧
  (∀ (s : State) (e e' : EdgeInput), s.phase = .ready → e.rst = false → e'.rst = false →
    ∃ t t', step (s.present e) = .next t ∧ step (s.present e') = .next t' ∧ t.later = t'.later ∧ t.inputs = t'.inputs)

/-- Don't-care bits (30_encoding.md R64 with the table of R62): two requests that agree on the fields and lanes an
operation reads do the same in every state from the first reset edge on, whatever the other bits are. -/
def Obligations.UnreadBitsNeverMatter : Prop :=
  ∀ (o o' : Operands) (s : State), s.phase = .ready →
    (o.val.extractLsb' 0 16 = o'.val.extractLsb' 0 16 → exec (.fenc16 o) s = exec (.fenc16 o') s) ∧
    (o.val.extractLsb' 0 32 = o'.val.extractLsb' 0 32 → exec (.fenc32 o) s = exec (.fenc32 o') s) ∧
    (o.val = o'.val → exec (.fenc64 o) s = exec (.fenc64 o') s) ∧
    ((∀ k : Fin 8, k.val < 2 → lane o.bytes k = lane o'.bytes k) → exec (.fdec16 o) s = exec (.fdec16 o') s) ∧
    ((∀ k : Fin 8, k.val < 4 → lane o.bytes k = lane o'.bytes k) → exec (.fdec32 o) s = exec (.fdec32 o') s) ∧
    (o.bytes = o'.bytes → exec (.fdec64 o) s = exec (.fdec64 o') s) ∧
    (min o.len.toNat 8 = min o'.len.toNat 8 → o.val = o'.val → exec (.venc o) s = exec (.venc o') s) ∧
    (min o.len.toNat 8 = min o'.len.toNat 8 →
      (∀ k : Fin 8, k.val < 2 ^ (o.bytes.extractLsb' 62 2).toNat → lane o.bytes k = lane o'.bytes k) →
      exec (.vdec o) s = exec (.vdec o') s) ∧
    (o.len = o'.len → o.val = o'.val → exec (.vcanon o) s = exec (.vcanon o') s) ∧
    (∀ req req' : ReqBundle, req.extractLsb' 132 4 = req'.extractLsb' 132 4 →
      req.extractLsb' 132 4 ∈ [0x0#4, 0x4#4, 0xB#4, 0xC#4, 0xD#4, 0xE#4, 0xF#4] →
      step (s.present ⟨false, true, req⟩) = step (s.present ⟨false, true, req'⟩))

/-- The input window (20_memory.md R41): a decode that is presented enough bytes does not depend on the lanes past the
buffer's end. For VDEC the available length is its own `len`; for a fixed-width decode the caller owes W/8 bytes
(93_implementation_defined.md). -/
def Obligations.LanesPastTheBufferAreIgnored : Prop :=
  ∀ (o o' : Operands) (avail : Nat) (s : State), s.phase = .ready → o'.len = o.len → o'.val = o.val →
    (∀ k : Fin 8, k.val < avail → lane o.bytes k = lane o'.bytes k) →
    (∀ op ∈ [Instr.fdec16, Instr.fdec32, Instr.fdec64],
      (op o).presentedEnough avail = true → exec (op o) s = exec (op o') s) ∧
    (avail = min o.len.toNat 8 → exec (.vdec o) s = exec (.vdec o') s)

/-- A varint encoded into a caller's buffer and decoded from it: with `n` bytes left at position `p`, VENC succeeds
exactly when the value's minimal length fits; the store replaces exactly those bytes; and VDEC at the same position of
the new buffer gives the value and the length. On a failure the buffer is unchanged (20_memory.md R41, R42;
41_varint.md R105, R110). The caller is the model's (log 12, DESIGN CHOICE): it drives zero past the end of its buffer
(`inputWindow`) and presents 15 for 15 or more bytes left (`lenOperand`), where the rules leave both open. -/
def Obligations.VarintThroughCallersBuffer : Prop :=
  ∀ (buf : List Byte) (p : Nat) (o o' : Operands) (s s' t t' : State), s.phase = .ready → s'.phase = .ready →
    p ≤ buf.length → o.val.toNat < 2 ^ 62 →
    o.len = lenOperand (buf.length - p) → exec (.venc o) s = .next t →
    (t.s1.r.err = .ok ↔ (minLen o.val).len ≤ buf.length - p) ∧
    (storeAt buf p t.s1.r).length = buf.length ∧
    (∀ j, j < p ∨ p + t.s1.r.len.toNat ≤ j → (storeAt buf p t.s1.r)[j]? = buf[j]?) ∧
    (t.s1.r.err ≠ .ok → storeAt buf p t.s1.r = buf) ∧
    (t.s1.r.err = .ok → o'.len = lenOperand (buf.length - p) → o'.bytes = inputWindow (storeAt buf p t.s1.r) p →
      exec (.vdec o') s' = .next t' → t'.s1.r = ⟨.ok, false, t.s1.r.len, o.val, 0#64⟩)

/-! ## Invariants and whole runs -/

/-- The invariant holds right after reset, for every latency (10_state.md R28): every stage is empty, and so meets the
necessary conditions on responses that `Rsp.Legal` lists. -/
def Obligations.InvHoldsAtReset : Prop :=
  State.reset.Inv ∧ ∀ lat : Nat, 1 ≤ lat → (State.resetWith lat).Inv

/-- Every step keeps the invariant: each stage that is not valid is `ZERO`, and each response meets the necessary
conditions that `Rsp.Legal` lists (R24, R29, R42, R71, R131). -/
def Obligations.EveryStepKeepsInv : Prop :=
  ∀ s t : State, s.Inv → step s = .next t → t.Inv

/-- The invariant comes about: one reset edge gives it from any state at all, a power-up state included; and from any
state after a reset edge, whatever its stages hold, it holds after `LAT` edges, reset or not, for by then every stage has
been loaded or cleared (10_state.md R24, R28). -/
def Obligations.InvHoldsAfterLatEdges : Prop :=
  (∀ (s : State) (e : EdgeInput), s.inputs.head? = some e → e.rst = true → ∃ t, step s = .next t ∧ t.Inv) ∧
  (∀ s : State, s.phase = .ready → ∃ t, Host.Core.run core s.lat s = .next t ∧ t.Inv)

/-- At power-up the stages are the free values of log 4 (10_state.md R28). -/
def Obligations.UnspecifiedOrInvHoldsAtPowerUp : Prop :=
  ∀ (lat powerUp : Nat) (inputs : List EdgeInput), 1 ≤ lat → (State.powerUp lat powerUp inputs).UnspecifiedOrInv

/-- The invariant from power-up on, which every step keeps: as long as no reset edge has come the stages are the free
values of log 4, and from then on the pipeline invariant holds (10_state.md R24, R28, 70_reset_and_hazards.md R162). -/
def Obligations.EveryStepKeepsUnspecifiedOrInv : Prop :=
  ∀ s t : State, s.UnspecifiedOrInv → step s = .next t → t.UnspecifiedOrInv

/-- Zero response while idle (10_state.md R29): a stage without a valid response holds `ZERO` after a reset edge and
from then on, and while it is so, `out_valid = 0` implies that every other output is zero. -/
def Obligations.OutputsZeroWhileIdle : Prop :=
  (∀ (s t : State) (e : EdgeInput), s.inputs.head? = some e → e.rst = true → step s = .next t → t.ZeroWhileIdle) ∧
  (∀ (s t : State) (k : Nat), s.phase = .ready → s.ZeroWhileIdle → Host.Core.run core k s = .next t →
    t.ZeroWhileIdle ∧ (t.outputs.outValid = false → t.outputs = ⟨false, 0b00#2, false, 0#4, 0#64, 0#64⟩))

/-- The pipeline as a whole: after `k` edges without reset its `LAT` stages hold, newest first, what the last samples
loaded, then what was in flight; responses leave in request order, none merged, dropped or reordered, and the rest of
the schedule lies ahead (10_state.md R24, 20_memory.md R50). A schedule that has run out samples as idle (log 1). -/
def Obligations.PipelineIsDelayLine : Prop :=
  ∀ (s : State) (k : Nat), s.phase = .ready → (∀ e ∈ s.inputs.take k, e.rst = false) →
    ∃ t, Host.Core.run core k s = .next t ∧ t.inputs = s.inputs.drop k ∧
      t.stages =
        (((List.range k).map fun j => (s.inputs.getD j EdgeInput.idle).load).reverse ++ s.stages).take s.lat

/-- The response to a request sampled at edge t stands at the outputs after edge t + LAT - 1, for exactly one cycle: at
edge t + LAT it is replaced by what the next sample loaded (20_memory.md R50, 70_reset_and_hazards.md R163, R167).
Where the schedule has run out by then, the next sample is the idle edge of log 1, the model's choice. -/
def Obligations.ResponseAfterExactlyLatEdges : Prop :=
  ∀ (s : State) (req : ReqBundle) (rest : List EdgeInput), s.phase = .ready →
    s.inputs = ⟨false, true, req⟩ :: rest → (∀ e ∈ rest.take s.lat, e.rst = false) →
    (∃ t, Host.Core.run core s.lat s = .next t ∧
      t.outputs = ⟨true, (execRsp req).err.code, (execRsp req).canon, (execRsp req).len, (execRsp req).val,
        (execRsp req).bytes⟩) ∧
    (∃ t, Host.Core.run core (s.lat + 1) s = .next t ∧ t.last = (rest.head?.getD EdgeInput.idle).load)

/-- The caller's data dependence (70_reset_and_hazards.md R166): at an edge before t + LAT nothing of the request
sampled at edge t has been seen at the outputs, so two machines that differ in that request alone have looked alike;
from edge t + LAT on the response has been seen. -/
def Obligations.DependentRequestEarliestEdge : Prop :=
  ∀ (s : State) (req req' : ReqBundle) (rest : List EdgeInput) (d : Nat), s.phase = .ready →
    s.inputs = ⟨false, true, req⟩ :: rest → (∀ e ∈ rest.take s.lat, e.rst = false) →
    (dependentInTime s.lat 0 d = false → ∀ c, c ≤ d →
      ∃ t t', Host.Core.run core c s = .next t ∧ Host.Core.run core c (s.present ⟨false, true, req'⟩) = .next t' ∧
        t.outputs = t'.outputs) ∧
    (dependentInTime s.lat 0 d = true → ∃ c t, c ≤ d ∧ Host.Core.run core c s = .next t ∧
      t.last = ⟨true, execRsp req⟩)

/-- No data-dependent timing (70_reset_and_hazards.md R163): two machines of one latency, with the same valid flags in
flight and the same `rst` and `in_valid` at every edge, show the same `out_valid` after every number of edges, whatever
the requests and the responses in flight are. -/
def Obligations.TimingIndependentOfData : Prop :=
  ∀ (s s' : State) (k : Nat), s.phase = .ready → s'.phase = .ready → s.stages.map Stage.v = s'.stages.map Stage.v →
    s.inputs.map (fun e => (e.rst, e.inValid)) = s'.inputs.map (fun e => (e.rst, e.inValid)) →
    ∃ t t', Host.Core.run core k s = .next t ∧ Host.Core.run core k s' = .next t' ∧
      t.outputs.outValid = t'.outputs.outValid

/-- From the first reset edge on, what the pipeline held is forgotten after `LAT` edges, reset or not: two machines of one
latency under the same samples are then in the same state (10_state.md R24, R27). -/
def Obligations.PastForgottenAfterLatEdges : Prop :=
  ∀ s s' : State, s.phase = .ready → s'.phase = .ready → s.lat = s'.lat → s.inputs = s'.inputs →
    Host.Core.run core s.lat s = Host.Core.run core s.lat s'
end

