-- ==== Sys2Proof/Laws/Decode.lean ====
section
/-!
SUPPORT. The fields of a packed bundle, the decoder on a packed bundle, and case analysis on the selector.
-/

namespace Sys2Proof

/-- A selector is one of the sixteen. -/
theorem opField_cases (op : OpField) :
    op = 0x0#4 ∨ op = 0x1#4 ∨ op = 0x2#4 ∨ op = 0x3#4 ∨ op = 0x4#4 ∨ op = 0x5#4 ∨ op = 0x6#4 ∨ op = 0x7#4 ∨
    op = 0x8#4 ∨ op = 0x9#4 ∨ op = 0xA#4 ∨ op = 0xB#4 ∨ op = 0xC#4 ∨ op = 0xD#4 ∨ op = 0xE#4 ∨ op = 0xF#4 := by
  revert op
  decide

/-- An append as a number. -/
theorem toNat_append_eq {m n : Nat} (a : BitVec m) (b : BitVec n) : (a ++ b).toNat = a.toNat * 2 ^ n + b.toNat := by
  rw [BitVec.toNat_append, ← Nat.shiftLeft_add_eq_or_of_lt b.isLt, Nat.shiftLeft_eq]

/-- A bit field as a number. -/
theorem toNat_extract {n : Nat} (a : BitVec n) (s l : Nat) : (a.extractLsb' s l).toNat = a.toNat / 2 ^ s % 2 ^ l := by
  rw [BitVec.extractLsb'_toNat, Nat.shiftRight_eq_div_pow]

/-- A packed bundle as a number. -/
theorem toNat_packReq (op : OpField) (o : Operands) :
    (packReq op o).toNat = op.toNat * 2 ^ 132 + o.len.toNat * 2 ^ 128 + o.val.toNat * 2 ^ 64 + o.bytes.toNat := by
  unfold packReq
  rw [toNat_append_eq, toNat_append_eq, toNat_append_eq]
  omega

@[simp] theorem reqOp_packReq (op : OpField) (o : Operands) : reqOp (packReq op o) = op := by
  apply BitVec.eq_of_toNat_eq
  rw [reqOp, toNat_extract, toNat_packReq]
  omega

@[simp] theorem reqLen_packReq (op : OpField) (o : Operands) : reqLen (packReq op o) = o.len := by
  apply BitVec.eq_of_toNat_eq
  rw [reqLen, toNat_extract, toNat_packReq]
  omega

@[simp] theorem reqVal_packReq (op : OpField) (o : Operands) : reqVal (packReq op o) = o.val := by
  apply BitVec.eq_of_toNat_eq
  rw [reqVal, toNat_extract, toNat_packReq]
  omega

@[simp] theorem reqBytes_packReq (op : OpField) (o : Operands) : reqBytes (packReq op o) = o.bytes := by
  apply BitVec.eq_of_toNat_eq
  rw [reqBytes, toNat_extract, toNat_packReq]
  omega

@[simp] theorem reqOperands_packReq (op : OpField) (o : Operands) : reqOperands (packReq op o) = o := by
  cases o
  simp [reqOperands]

/-- A bundle is its selector and its operand fields: no bit is left over. -/
theorem packReq_fields (req : ReqBundle) : packReq (reqOp req) (reqOperands req) = req := by
  apply BitVec.eq_of_toNat_eq
  simp only [toNat_packReq, reqOperands, reqOp, reqLen, reqVal, reqBytes, toNat_extract]
  omega

/-- Decoding a packed bundle looks its selector up. -/
theorem decode_packReq (op : OpField) (o : Operands) :
    decode (packReq op o) = match instrOfOp op o with
      | some i => .instr i
      | none => .reservedOp op := by
  cases h : instrOfOp op o <;> simp only [decode, reqOp_packReq, reqOperands_packReq, h]

/-- The row of the opcode map an operation stands in is its own. -/
theorem instrOfOp_eq_some {op : OpField} {o : Operands} {i : Instr} (h : instrOfOp op o = some i) :
    i.opcode = op ∧ i.operands = o := by
  rcases opField_cases op with rfl | rfl | rfl | rfl | rfl | rfl | rfl | rfl | rfl | rfl | rfl | rfl | rfl | rfl | rfl | rfl <;>
    simp [instrOfOp] at h <;> subst h <;> exact ⟨rfl, rfl⟩

/-- The opcode map has no row exactly for the reserved selectors (30_encoding.md R68). -/
theorem instrOfOp_eq_none {op : OpField} {o : Operands} : instrOfOp op o = none ↔ op ∈ reservedOps := by
  rcases opField_cases op with rfl | rfl | rfl | rfl | rfl | rfl | rfl | rfl | rfl | rfl | rfl | rfl | rfl | rfl | rfl | rfl <;>
    simp [instrOfOp, reservedOps]

/-- What the decoder answers says what the selector is. -/
theorem decode_cases (req : ReqBundle) :
    (∃ i, decode req = .instr i ∧ instrOfOp (reqOp req) (reqOperands req) = some i) ∨
    (decode req = .reservedOp (reqOp req) ∧ reqOp req ∈ reservedOps) := by
  unfold decode
  cases h : instrOfOp (reqOp req) (reqOperands req) with
  | some i => exact .inl ⟨i, rfl, rfl⟩
  | none => exact .inr ⟨rfl, instrOfOp_eq_none.mp h⟩

/-- The first `k` hexadecimal digits of a bundle, read as a number, are its top `4k` bits. -/
theorem hexDigits_prefix (req : ReqBundle) (k : Nat) (hk : k ≤ 34) :
    ((List.range k).map fun j => req.extractLsb' (132 - 4 * j) 4).foldl (fun acc d => 16 * acc + d.toNat) 0 =
      req.toNat / 2 ^ (136 - 4 * k) := by
  induction k with
  | zero =>
    have := req.isLt
    simp
    omega
  | succ k ih =>
    have hp : 2 ^ (136 - 4 * k) = 2 ^ (132 - 4 * k) * 2 ^ 4 := by rw [← pow_add]; congr 1; omega
    rw [List.range_succ, List.map_append, List.foldl_append, ih (by omega), hp, ← Nat.div_div_eq_div_mul]
    simp only [List.map_cons, List.map_nil, List.foldl_cons, List.foldl_nil, toNat_extract]
    rw [show 136 - 4 * (k + 1) = 132 - 4 * k by omega]
    omega

end Sys2Proof
end

