-- ==== Sys2Proof/Laws/State.lean ====
section
/-!
SUPPORT. One lemma per field per update of State, and the stage list and the latency of each operation.
-/

namespace Sys2Proof.Machine

@[simp] theorem unspecify_s1 (s : State) (p : Nat) (h : List EdgeInput) : (s.unspecify p h).s1 = unspecifiedStage p h 1 := rfl
@[simp] theorem unspecify_inputs (s : State) (p : Nat) (h : List EdgeInput) : (s.unspecify p h).inputs = s.inputs := rfl
@[simp] theorem unspecify_phase (s : State) (p : Nat) (h : List EdgeInput) : (s.unspecify p h).phase = s.phase := rfl

/-- A shift from the first reset edge on (10_state.md R24). -/
theorem shiftIn_ready {s : State} (hs : s.phase = .ready) (st : Stage) :
    s.shiftIn st = { s with s1 := st, later := (s.s1 :: s.later).dropLast } := by
  simp [State.shiftIn, hs]

/-- A shift before the first reset edge (70_reset_and_hazards.md R162). -/
theorem shiftIn_unreset {s : State} {p : Nat} {h : List EdgeInput} (hs : s.phase = .unreset p h) (st : Stage) :
    s.shiftIn st = s.unspecify p h := by
  simp [State.shiftIn, hs]

theorem shiftIn_s1 {s : State} (hs : s.phase = .ready) (st : Stage) : (s.shiftIn st).s1 = st := by
  rw [shiftIn_ready hs]
theorem shiftIn_later {s : State} (hs : s.phase = .ready) (st : Stage) :
    (s.shiftIn st).later = (s.s1 :: s.later).dropLast := by
  rw [shiftIn_ready hs]
@[simp] theorem shiftIn_inputs (s : State) (st : Stage) : (s.shiftIn st).inputs = s.inputs := by
  unfold State.shiftIn; split <;> rfl
@[simp] theorem shiftIn_phase (s : State) (st : Stage) : (s.shiftIn st).phase = s.phase := by
  unfold State.shiftIn; split <;> rfl

theorem respond_s1 {s : State} (hs : s.phase = .ready) (r : Rsp) : (s.respond r).s1 = ⟨true, r⟩ := shiftIn_s1 hs _
theorem respond_later {s : State} (hs : s.phase = .ready) (r : Rsp) :
    (s.respond r).later = (s.s1 :: s.later).dropLast := shiftIn_later hs _
/-- All that a request's edge does from the first reset edge on. -/
theorem respond_ready {s : State} (hs : s.phase = .ready) (r : Rsp) :
    s.respond r = { s1 := ⟨true, r⟩, later := (s.s1 :: s.later).dropLast, inputs := s.inputs, phase := .ready } := by
  rw [State.respond, shiftIn_ready hs, hs]
@[simp] theorem respond_inputs (s : State) (r : Rsp) : (s.respond r).inputs = s.inputs := shiftIn_inputs s _
@[simp] theorem respond_phase (s : State) (r : Rsp) : (s.respond r).phase = s.phase := shiftIn_phase s _

theorem idleEdge_s1 {s : State} (hs : s.phase = .ready) : s.idleEdge.s1 = Stage.empty := shiftIn_s1 hs _
theorem idleEdge_later {s : State} (hs : s.phase = .ready) : s.idleEdge.later = (s.s1 :: s.later).dropLast :=
  shiftIn_later hs _
@[simp] theorem idleEdge_inputs (s : State) : s.idleEdge.inputs = s.inputs := shiftIn_inputs s _
@[simp] theorem idleEdge_phase (s : State) : s.idleEdge.phase = s.phase := shiftIn_phase s _

@[simp] theorem resetEdge_s1 (s : State) : s.resetEdge.s1 = Stage.empty := rfl
@[simp] theorem resetEdge_later (s : State) : s.resetEdge.later = s.later.map fun _ => Stage.empty := rfl
@[simp] theorem resetEdge_inputs (s : State) : s.resetEdge.inputs = s.inputs := rfl
@[simp] theorem resetEdge_phase (s : State) : s.resetEdge.phase = .ready := rfl

@[simp] theorem record_ready (e : EdgeInput) : Phase.ready.record e = .ready := rfl
@[simp] theorem record_unreset (p : Nat) (h : List EdgeInput) (e : EdgeInput) :
    (Phase.unreset p h).record e = .unreset p (e :: h) := rfl

@[simp] theorem afterSample_s1 (s : State) : s.afterSample.s1 = s.s1 := rfl
@[simp] theorem afterSample_later (s : State) : s.afterSample.later = s.later := rfl
@[simp] theorem afterSample_inputs (s : State) : s.afterSample.inputs = s.inputs.tail := rfl
@[simp] theorem afterSample_phase (s : State) : s.afterSample.phase = s.phase.record s.sampled := rfl

/-- A sample taken from the first reset edge on changes the schedule alone. -/
theorem afterSample_ready {s : State} (hs : s.phase = .ready) : s.afterSample = { s with inputs := s.inputs.tail } := by
  simp [State.afterSample, hs]

@[simp] theorem present_s1 (s : State) (e : EdgeInput) : (s.present e).s1 = s.s1 := rfl
@[simp] theorem present_later (s : State) (e : EdgeInput) : (s.present e).later = s.later := rfl
@[simp] theorem present_inputs (s : State) (e : EdgeInput) : (s.present e).inputs = e :: s.inputs.tail := rfl
@[simp] theorem present_phase (s : State) (e : EdgeInput) : (s.present e).phase = s.phase := rfl

@[simp] theorem raise_err (e : Err) : (raise e).err = e := rfl
@[simp] theorem raise_canon (e : Err) : (raise e).canon = false := rfl
@[simp] theorem raise_len (e : Err) : (raise e).len = 0#4 := rfl
@[simp] theorem raise_val (e : Err) : (raise e).val = 0#64 := rfl
@[simp] theorem raise_bytes (e : Err) : (raise e).bytes = 0#64 := rfl

/-! ## The stage list -/

@[simp] theorem afterSample_stages (s : State) : s.afterSample.stages = s.stages := rfl
@[simp] theorem present_stages (s : State) (e : EdgeInput) : (s.present e).stages = s.stages := rfl

theorem stages_ne_nil (s : State) : s.stages ≠ [] := List.cons_ne_nil _ _

theorem shiftIn_stages {s : State} (hs : s.phase = .ready) (st : Stage) :
    (s.shiftIn st).stages = st :: s.stages.dropLast := by
  rw [shiftIn_ready hs]
  rfl

/-- The stages before the first reset edge: `S[1], …, S[LAT]`, all free values. -/
theorem unspecify_stages (s : State) (p : Nat) (h : List EdgeInput) :
    (s.unspecify p h).stages = (List.range s.lat).map fun k => unspecifiedStage p h (k + 1) := by
  simp [State.stages, State.lat, State.unspecify, List.range_succ_eq_map, Function.comp_def]

theorem resetEdge_stages (s : State) : s.resetEdge.stages = List.replicate s.lat Stage.empty := by
  simp [State.stages, State.lat, List.replicate_succ]

@[simp] theorem unspecify_lat (s : State) (p : Nat) (h : List EdgeInput) : (s.unspecify p h).lat = s.lat := by
  simp [State.lat, State.stages, State.unspecify]

@[simp] theorem shiftIn_lat (s : State) (st : Stage) : (s.shiftIn st).lat = s.lat := by
  unfold State.shiftIn
  split
  · simp [State.lat, State.stages]
  · exact unspecify_lat s _ _

@[simp] theorem resetEdge_lat (s : State) : s.resetEdge.lat = s.lat := by
  simp [State.lat, State.stages]

@[simp] theorem afterSample_lat (s : State) : s.afterSample.lat = s.lat := rfl
@[simp] theorem present_lat (s : State) (e : EdgeInput) : (s.present e).lat = s.lat := rfl

theorem lat_pos (s : State) : 0 < s.lat := Nat.succ_pos _

@[simp] theorem stages_length (s : State) : s.stages.length = s.lat := rfl

/-- A state is its stage list, its input schedule and its phase. -/
theorem state_ext_stages {s t : State} (hs : s.stages = t.stages) (hi : s.inputs = t.inputs) (hp : s.phase = t.phase) :
    s = t := by
  cases s
  cases t
  simp_all [State.stages]

/-- The later stages of a shift, as the first `lat` of the old ones behind the new one. -/
theorem shiftIn_stages_take {s : State} (hs : s.phase = .ready) (st : Stage) :
    (s.shiftIn st).stages = (st :: s.stages).take s.lat := by
  rw [shiftIn_stages hs, List.dropLast_eq_take, State.lat, State.stages]
  rfl

/-! ## Power-up -/

@[simp] theorem powerUp_inputs (lat p : Nat) (l : List EdgeInput) : (State.powerUp lat p l).inputs = l := rfl
@[simp] theorem powerUp_phase (lat p : Nat) (l : List EdgeInput) : (State.powerUp lat p l).phase = .unreset p [] := rfl

theorem powerUp_lat {lat : Nat} (h : 1 ≤ lat) (p : Nat) (l : List EdgeInput) : (State.powerUp lat p l).lat = lat := by
  simp [State.powerUp, State.resetWith, State.lat, State.stages, State.unspecify]
  omega

/-- Right after power-up every stage is a free value (10_state.md R28). -/
theorem powerUp_stages {lat : Nat} (h : 1 ≤ lat) (p : Nat) (l : List EdgeInput) :
    (State.powerUp lat p l).stages = (List.range lat).map fun k => unspecifiedStage p [] (k + 1) := by
  rw [State.powerUp, unspecify_stages, ← unspecify_lat _ p [], ← State.powerUp, powerUp_lat h]

/-! ## `S[LAT]` and the outputs -/

theorem last_eq_getLast (s : State) : s.last = s.stages.getLast (stages_ne_nil s) := by
  unfold State.last State.stages
  rcases List.eq_nil_or_concat s.later with h | ⟨l, a, h⟩ <;> simp [h]

theorem last_eq_getElem? (s : State) : s.stages[s.lat - 1]? = some s.last := by
  rw [last_eq_getLast, ← stages_length, ← List.getLast?_eq_getElem?, List.getLast?_eq_some_getLast (stages_ne_nil s)]

theorem last_mem_stages (s : State) : s.last ∈ s.stages := by
  rw [last_eq_getLast]
  exact List.getLast_mem _

theorem outputs_outValid (s : State) : s.outputs.outValid = s.last.v := rfl

end Sys2Proof.Machine
end

