-- ==== Sys2Proof/Laws/Ops.lean ====
section
/-!
SUPPORT. Lanes, placed fields, response bundles and caller buffers as numbers and lists.
-/

namespace Sys2Proof.Machine

/-! ## Lanes -/

/-- A lane as a number. -/
theorem toNat_lane (b : LaneVec) (k : Fin 8) : (lane b k).toNat = b.toNat / 2 ^ (56 - 8 * k.val) % 256 := by
  rw [lane, toNat_extract]
  rfl

/-- A lane vector is the sum of its lanes, lane 0 most significant. -/
theorem toNat_eq_lanes (b : LaneVec) :
    b.toNat = (lane b 0).toNat * 2 ^ 56 + (lane b 1).toNat * 2 ^ 48 + (lane b 2).toNat * 2 ^ 40 +
      (lane b 3).toNat * 2 ^ 32 + (lane b 4).toNat * 2 ^ 24 + (lane b 5).toNat * 2 ^ 16 + (lane b 6).toNat * 2 ^ 8 +
      (lane b 7).toNat := by
  simp only [toNat_lane]
  have := b.isLt
  simp only [Fin.isValue, Fin.val_zero, Fin.val_one, show ((2 : Fin 8) : Nat) = 2 from rfl,
    show ((3 : Fin 8) : Nat) = 3 from rfl, show ((4 : Fin 8) : Nat) = 4 from rfl, show ((5 : Fin 8) : Nat) = 5 from rfl,
    show ((6 : Fin 8) : Nat) = 6 from rfl, show ((7 : Fin 8) : Nat) = 7 from rfl]
  omega

/-- Two lane vectors with the same lanes are equal. -/
theorem lanes_ext {b b' : LaneVec} (h : ∀ k : Fin 8, lane b k = lane b' k) : b = b' := by
  apply BitVec.eq_of_toNat_eq
  rw [toNat_eq_lanes b, toNat_eq_lanes b']
  simp only [h]

@[simp] theorem lane_zero (k : Fin 8) : lane 0#64 k = 0#8 := by
  apply BitVec.eq_of_toNat_eq
  simp [toNat_lane]

/-- A bit of a vector is a bit of its lane. -/
theorem getLsbD_lane (b : LaneVec) (k : Fin 8) (j : Nat) (hj : j < 8) :
    (lane b k).getLsbD j = b.getLsbD (56 - 8 * k.val + j) := by
  simp [lane, hj]

/-- Writing a lane sets that lane and no other (00_scope.md R11). -/
theorem lane_setLane (b : LaneVec) (k j : Fin 8) (x : Byte) : lane (setLane b k x) j = if j = k then x else lane b j := by
  apply BitVec.eq_of_getLsbD_eq
  intro i hi
  have hk := k.isLt
  have hj := j.isLt
  have hm : (0xFF#64).getLsbD (56 - 8 * j.val + i - (56 - 8 * k.val)) =
      decide (56 - 8 * j.val + i - (56 - 8 * k.val) < 8) := by
    have : ∀ n : Fin 64, (0xFF#64).getLsbD n.val = decide (n.val < 8) := by decide
    exact this ⟨_, by omega⟩
  rw [getLsbD_lane _ _ _ hi, setLane, BitVec.getLsbD_or, BitVec.getLsbD_and, BitVec.getLsbD_not, BitVec.getLsbD_shiftLeft,
    BitVec.getLsbD_shiftLeft, BitVec.getLsbD_setWidth, hm]
  by_cases h : j = k
  · subst h
    simp [show 56 - 8 * j.val + i < 64 by omega, hi, show i < 64 by omega]
  · have hne : j.val ≠ k.val := fun e => h (Fin.ext e)
    rw [if_neg h, getLsbD_lane _ _ _ hi]
    by_cases hlt : 56 - 8 * j.val + i < 56 - 8 * k.val
    · simp [hlt, show 56 - 8 * j.val + i < 64 by omega]
    · simp [hlt, show 56 - 8 * j.val + i < 64 by omega, show ¬ (56 - 8 * j.val + i - (56 - 8 * k.val) < 8) by omega,
        BitVec.getLsbD_of_ge x _ (show 8 ≤ 56 - 8 * j.val + i - (56 - 8 * k.val) by omega)]

/-- Agreement on the first `n` lanes is agreement on the top `8n` bits. -/
theorem top_eq_of_lanes {b b' : LaneVec} {n : Nat} (hn : n ≤ 8)
    (h : ∀ k : Fin 8, k.val < n → lane b k = lane b' k) : b.toNat / 2 ^ (64 - 8 * n) = b'.toNat / 2 ^ (64 - 8 * n) := by
  have hs : b >>> (64 - 8 * n) = b' >>> (64 - 8 * n) := by
    apply BitVec.eq_of_getLsbD_eq
    intro i hi
    rw [BitVec.getLsbD_ushiftRight, BitVec.getLsbD_ushiftRight]
    by_cases hp : 64 - 8 * n + i < 64
    · have hk := h ⟨7 - (64 - 8 * n + i) / 8, by omega⟩ (by show 7 - (64 - 8 * n + i) / 8 < n; omega)
      have hb := congrArg (fun x => x.getLsbD ((64 - 8 * n + i) % 8)) hk
      rw [getLsbD_lane _ _ _ (by omega), getLsbD_lane _ _ _ (by omega)] at hb
      rwa [show 56 - 8 * (7 - (64 - 8 * n + i) / 8) + (64 - 8 * n + i) % 8 = 64 - 8 * n + i by omega] at hb
    · rw [BitVec.getLsbD_of_ge _ _ (by omega), BitVec.getLsbD_of_ge _ _ (by omega)]
  have := congrArg BitVec.toNat hs
  simpa only [BitVec.toNat_ushiftRight, Nat.shiftRight_eq_div_pow] using this

/-- A lane of a vector built from bytes is the byte, or zero where the list has ended. -/
theorem lane_lanesOfBytes (bs : List Byte) (k : Fin 8) : lane (lanesOfBytes bs) k = bs.getD k.val 0#8 := by
  apply BitVec.eq_of_toNat_eq
  rw [toNat_lane, lanesOfBytes]
  rw [toNat_append_eq, toNat_append_eq, toNat_append_eq, toNat_append_eq, toNat_append_eq, toNat_append_eq,
    toNat_append_eq]
  have l := fun k => (bs.getD k 0#8).isLt
  have l0 := l 0; have l1 := l 1; have l2 := l 2; have l3 := l 3
  have l4 := l 4; have l5 := l 5; have l6 := l 6; have l7 := l 7
  clear l
  fin_cases k <;> simp only [] <;> omega

@[simp] theorem laneList_length (b : LaneVec) : (laneList b).length = 8 := by simp [laneList]

theorem laneList_getElem? (b : LaneVec) (k : Fin 8) : (laneList b)[k.val]? = some (lane b k) := by
  simp [laneList]

theorem storedBytes_length {r : Rsp} (h : r.len.toNat ≤ 8) : r.storedBytes.length = r.len.toNat := by
  simp [Rsp.storedBytes, h]

/-! ## Placed fields -/

/-- A field placed in the top bits, as a number. -/
theorem toNat_placeHigh {n : Nat} (hn : n ≤ 64) (e : BitVec n) : (placeHigh n e).toNat = e.toNat * 2 ^ (64 - n) := by
  have he := e.isLt
  have hp : 2 ^ n * 2 ^ (64 - n) = 2 ^ 64 := by rw [← pow_add, Nat.add_sub_cancel' hn]
  have hlt : e.toNat * 2 ^ (64 - n) < 2 ^ 64 := by
    rw [← hp]
    exact Nat.mul_lt_mul_of_pos_right he (Nat.two_pow_pos _)
  rw [placeHigh, BitVec.toNat_shiftLeft, BitVec.toNat_setWidth, Nat.shiftLeft_eq,
    Nat.mod_eq_of_lt (lt_of_lt_of_le he (Nat.pow_le_pow_right (by omega) hn)), Nat.mod_eq_of_lt hlt]

/-! ## Response bundles -/

@[simp] theorem ofCode_code (e : Err) : Err.ofCode e.code = e := by cases e <;> rfl

@[simp] theorem code_ofCode (c : BitVec 2) : (Err.ofCode c).code = c := by
  revert c
  decide

theorem code_injective {e e' : Err} (h : e.code = e'.code) : e = e' := by
  rw [← ofCode_code e, h, ofCode_code]

/-- A packed response as a number. -/
theorem toNat_pack (r : Rsp) :
    r.pack.toNat = r.err.code.toNat * 2 ^ 133 + r.canon.toNat * 2 ^ 132 + r.len.toNat * 2 ^ 128 + r.val.toNat * 2 ^ 64 +
      r.bytes.toNat := by
  unfold Rsp.pack
  rw [toNat_append_eq, toNat_append_eq, toNat_append_eq, toNat_append_eq, BitVec.toNat_ofBool]
  omega

end Sys2Proof.Machine
end

