-- ==== Sys2Proof/Laws/FixedWidth.lean ====
section
/-!
SUPPORT. The fixed-width responses, field by field and as numbers.
-/

namespace Sys2Proof.Machine

theorem Width.bits_le (w : Width) : w.bits ≤ 64 := by cases w <;> decide

@[simp] theorem fenc_err (w : Width) (o : Operands) : (fenc w o).err = .ok := rfl
@[simp] theorem fenc_canon (w : Width) (o : Operands) : (fenc w o).canon = false := rfl
@[simp] theorem fenc_len (w : Width) (o : Operands) : (fenc w o).len = w.lenField := rfl
@[simp] theorem fenc_val (w : Width) (o : Operands) : (fenc w o).val = 0#64 := rfl

@[simp] theorem fdec_err (w : Width) (o : Operands) : (fdec w o).err = .ok := rfl
@[simp] theorem fdec_canon (w : Width) (o : Operands) : (fdec w o).canon = false := rfl
@[simp] theorem fdec_len (w : Width) (o : Operands) : (fdec w o).len = w.lenField := rfl
@[simp] theorem fdec_bytes (w : Width) (o : Operands) : (fdec w o).bytes = 0#64 := rfl

/-- FENCW's lanes as a number: the low W bits of the value, shifted to the top (40_fixed_width.md R80). -/
theorem toNat_fenc_bytes (w : Width) (o : Operands) :
    (fenc w o).bytes.toNat = o.val.toNat % 2 ^ w.bits * 2 ^ (64 - w.bits) := by
  rw [fenc, toNat_placeHigh w.bits_le, fixedValue, toNat_extract, pow_zero, Nat.div_one]

/-- FDECW's value as a number: the lane vector shifted right by 64 - W (40_fixed_width.md R80). -/
theorem toNat_fdec_val (w : Width) (o : Operands) : (fdec w o).val.toNat = o.bytes.toNat / 2 ^ (64 - w.bits) := by
  have hb := o.bytes.isLt
  rw [fdec, BitVec.toNat_setWidth, fixedField, toNat_extract]
  cases w <;> simp only [Width.bits] <;> omega

end Sys2Proof.Machine
end

