-- ==== Sys2Proof/Laws/PerInstr.lean ====
section
/-!
SUPPORT. Facts about every instruction as syntax, one lemma per constructor.
-/

namespace Sys2Proof.Laws.OpField

/-- The bundle of an operation holds its selector in `op` and its operand fields in the rest, and the selector is not
a reserved one (30_encoding.md R60, R61, R68). -/
def Statement (i : Instr) : Prop :=
  reqOp (encode i) = i.opcode ∧ reqOperands (encode i) = i.operands ∧ i.opcode ∉ reservedOps

theorem fenc16 (o : Operands) : Statement (.fenc16 o) := ⟨reqOp_packReq _ _, reqOperands_packReq _ _, by simp [Instr.opcode, reservedOps]⟩
theorem fenc32 (o : Operands) : Statement (.fenc32 o) := ⟨reqOp_packReq _ _, reqOperands_packReq _ _, by simp [Instr.opcode, reservedOps]⟩
theorem fenc64 (o : Operands) : Statement (.fenc64 o) := ⟨reqOp_packReq _ _, reqOperands_packReq _ _, by simp [Instr.opcode, reservedOps]⟩
theorem fdec16 (o : Operands) : Statement (.fdec16 o) := ⟨reqOp_packReq _ _, reqOperands_packReq _ _, by simp [Instr.opcode, reservedOps]⟩
theorem fdec32 (o : Operands) : Statement (.fdec32 o) := ⟨reqOp_packReq _ _, reqOperands_packReq _ _, by simp [Instr.opcode, reservedOps]⟩
theorem fdec64 (o : Operands) : Statement (.fdec64 o) := ⟨reqOp_packReq _ _, reqOperands_packReq _ _, by simp [Instr.opcode, reservedOps]⟩
theorem venc (o : Operands) : Statement (.venc o) := ⟨reqOp_packReq _ _, reqOperands_packReq _ _, by simp [Instr.opcode, reservedOps]⟩
theorem vdec (o : Operands) : Statement (.vdec o) := ⟨reqOp_packReq _ _, reqOperands_packReq _ _, by simp [Instr.opcode, reservedOps]⟩
theorem vcanon (o : Operands) : Statement (.vcanon o) := ⟨reqOp_packReq _ _, reqOperands_packReq _ _, by simp [Instr.opcode, reservedOps]⟩

end Sys2Proof.Laws.OpField
end

