-- ==== Sys2Proof/Laws/Step.lean ====
section
/-!
SUPPORT. What a clock edge does, said once: `exec`, `step` and a run as plain functions of the state.
-/

namespace Sys2Proof.Machine

/-! ## `Exec` on the bundle of each operation (30_encoding.md R67) -/

@[simp] theorem execRsp_fenc16 (o : Operands) : execRsp (encode (.fenc16 o)) = fenc .w16 o := by
  simp [execRsp, encode, Instr.opcode, Instr.operands, widthOfOp]
@[simp] theorem execRsp_fenc32 (o : Operands) : execRsp (encode (.fenc32 o)) = fenc .w32 o := by
  simp [execRsp, encode, Instr.opcode, Instr.operands, widthOfOp]
@[simp] theorem execRsp_fenc64 (o : Operands) : execRsp (encode (.fenc64 o)) = fenc .w64 o := by
  simp [execRsp, encode, Instr.opcode, Instr.operands, widthOfOp]
@[simp] theorem execRsp_fdec16 (o : Operands) : execRsp (encode (.fdec16 o)) = fdec .w16 o := by
  simp [execRsp, encode, Instr.opcode, Instr.operands, widthOfOp]
@[simp] theorem execRsp_fdec32 (o : Operands) : execRsp (encode (.fdec32 o)) = fdec .w32 o := by
  simp [execRsp, encode, Instr.opcode, Instr.operands, widthOfOp]
@[simp] theorem execRsp_fdec64 (o : Operands) : execRsp (encode (.fdec64 o)) = fdec .w64 o := by
  simp [execRsp, encode, Instr.opcode, Instr.operands, widthOfOp]
@[simp] theorem execRsp_venc (o : Operands) : execRsp (encode (.venc o)) = vencRsp o := by
  simp [execRsp, encode, Instr.opcode, Instr.operands]
@[simp] theorem execRsp_vdec (o : Operands) : execRsp (encode (.vdec o)) = vdecRsp o := by
  simp [execRsp, encode, Instr.opcode, Instr.operands]
@[simp] theorem execRsp_vcanon (o : Operands) : execRsp (encode (.vcanon o)) = vcanonRsp o := by
  simp [execRsp, encode, Instr.opcode, Instr.operands]

/-- Every operation's edge loads the response of R67's `Exec` for its bundle, and does nothing else but shift. -/
theorem exec_eq_respond (i : Instr) (s : State) : exec i s = .next (s.respond (execRsp (encode i))) := by
  cases i <;> simp only [execRsp_fenc16, execRsp_fenc32, execRsp_fenc64, execRsp_fdec16, execRsp_fdec32, execRsp_fdec64,
    execRsp_venc, execRsp_vdec, execRsp_vcanon] <;> rfl

/-- The inversion of `exec`: what follows if it answers a next state. -/
theorem exec_next {i : Instr} {s t : State} (h : exec i s = .next t) : t = s.respond (execRsp (encode i)) := by
  rw [exec_eq_respond] at h
  exact (Host.Outcome.next.inj h).symm

/-- A row of the opcode map, encoded, is the bundle it came from. -/
theorem encode_of_instrOfOp {req : ReqBundle} {i : Instr} (h : instrOfOp (reqOp req) (reqOperands req) = some i) :
    encode i = req := by
  obtain ⟨h1, h2⟩ := instrOfOp_eq_some h
  rw [encode, h1, h2, packReq_fields]

/-- A reserved selector's response. -/
theorem execRsp_reserved {req : ReqBundle} (h : reqOp req ∈ reservedOps) : execRsp req = raise .illegalOp := by
  unfold execRsp
  simp only [reservedOps, List.mem_cons, List.not_mem_nil, or_false] at h
  rcases h with h | h | h | h | h | h | h <;> simp [h]

/-- The state after one edge, with the sample's request performed by R67's `Exec`. -/
def State.edge (s : State) : State :=
  if s.sampled.rst then s.afterSample.resetEdge else s.afterSample.shiftIn s.sampled.load

/-- One step answers the state after one edge. -/
theorem step_eq_edge (s : State) : step s = .next s.edge := by
  unfold step State.edge EdgeInput.load
  split
  · rfl
  · split
    · rcases decode_cases s.sampled.req with ⟨i, hd, hi⟩ | ⟨hd, hr⟩
      · rw [hd]
        simp only [exec_eq_respond, encode_of_instrOfOp hi]
        rfl
      · rw [hd, execRsp_reserved hr]; rfl
    · rfl

/-- The inversion of `step`. -/
theorem step_next {s t : State} (h : step s = .next t) : t = s.edge := by
  rw [step_eq_edge] at h
  exact (Host.Outcome.next.inj h).symm

theorem sampled_of_head {s : State} {e : EdgeInput} (h : s.inputs.head? = some e) : s.sampled = e := by
  simp [State.sampled, h]

@[simp] theorem sampled_present (s : State) (e : EdgeInput) : (s.present e).sampled = e := rfl

theorem edge_of_rst {s : State} (h : s.sampled.rst = true) : s.edge = s.afterSample.resetEdge := by
  simp [State.edge, h]

theorem edge_of_not_rst {s : State} (h : s.sampled.rst = false) : s.edge = s.afterSample.shiftIn s.sampled.load := by
  simp [State.edge, h]

/-- All that an edge without reset does from the first reset edge on (10_state.md R24). -/
theorem edge_of_ready {s : State} (hs : s.phase = .ready) (hr : s.sampled.rst = false) :
    s.edge =
      { s1 := s.sampled.load, later := (s.s1 :: s.later).dropLast, inputs := s.inputs.tail, phase := .ready } := by
  rw [edge_of_not_rst hr, shiftIn_ready (by rw [afterSample_phase, hs, record_ready]), afterSample_ready hs, hs]

@[simp] theorem edge_inputs (s : State) : s.edge.inputs = s.inputs.tail := by
  unfold State.edge
  split <;> simp

@[simp] theorem edge_lat (s : State) : s.edge.lat = s.lat := by
  unfold State.edge
  split <;> simp

/-- The phase after an edge: only a reset edge ends the unspecified one (70_reset_and_hazards.md R162). -/
theorem edge_phase (s : State) : s.edge.phase = if s.sampled.rst then .ready else s.phase.record s.sampled := by
  unfold State.edge
  split <;> simp

theorem edge_ready {s : State} (hs : s.phase = .ready) : s.edge.phase = .ready := by
  simp [edge_phase, hs]

/-- The stages after a reset edge: all empty. -/
theorem edge_stages_rst {s : State} (hr : s.sampled.rst = true) : s.edge.stages = List.replicate s.lat Stage.empty := by
  rw [edge_of_rst hr, resetEdge_stages, afterSample_lat]

/-- The stages after an edge without reset, before the first one with: free values. -/
theorem edge_stages_unreset {s : State} {p : Nat} {h : List EdgeInput} (hs : s.phase = .unreset p h)
    (hr : s.sampled.rst = false) :
    s.edge.stages = (List.range s.lat).map fun k => unspecifiedStage p (s.sampled :: h) (k + 1) := by
  rw [edge_of_not_rst hr, shiftIn_unreset (by rw [afterSample_phase, hs, record_unreset]), unspecify_stages, afterSample_lat]

/-- The stages after an edge from the first reset edge on: all empty, or the sample's load in front of the old ones,
the last one gone. -/
theorem edge_stages {s : State} (hs : s.phase = .ready) :
    s.edge.stages =
      if s.sampled.rst then List.replicate s.lat Stage.empty else (s.sampled.load :: s.stages).take s.lat := by
  split
  · exact edge_stages_rst ‹_›
  · rw [edge_of_not_rst (eq_false_of_ne_true ‹_›), shiftIn_stages_take (by rw [afterSample_phase, hs, record_ready]), afterSample_lat,
      afterSample_stages]

/-- A run of `k` steps is `k` edges. -/
theorem run_eq_iterate (k : Nat) (s : State) : Host.Core.run core k s = .next (State.edge^[k] s) := by
  induction k generalizing s with
  | zero => rfl
  | succ k ih =>
    have h : core.step s = .next s.edge := step_eq_edge s
    simp only [Host.Core.run, h]
    exact ih s.edge

/-- The inversion of a run. -/
theorem run_next {k : Nat} {s t : State} (h : Host.Core.run core k s = .next t) : t = State.edge^[k] s := by
  rw [run_eq_iterate] at h
  exact (Host.Outcome.next.inj h).symm

@[simp] theorem iterate_edge_lat (k : Nat) (s : State) : (State.edge^[k] s).lat = s.lat := by
  induction k generalizing s with
  | zero => rfl
  | succ k ih => rw [Function.iterate_succ_apply, ih, edge_lat]

@[simp] theorem iterate_edge_inputs (k : Nat) (s : State) : (State.edge^[k] s).inputs = s.inputs.drop k := by
  induction k generalizing s with
  | zero => rfl
  | succ k ih => rw [Function.iterate_succ_apply, ih, edge_inputs, List.drop_tail]

theorem iterate_edge_ready (k : Nat) {s : State} (hs : s.phase = .ready) : (State.edge^[k] s).phase = .ready := by
  induction k generalizing s with
  | zero => exact hs
  | succ k ih => exact ih (edge_ready hs)

/-- What holds of a state and is kept by every edge holds after every run. -/
theorem iterate_edge_induction {P : State → Prop} (hstep : ∀ s, P s → P s.edge) (k : Nat) {s : State} (h : P s) :
    P (State.edge^[k] s) := by
  induction k generalizing s with
  | zero => exact h
  | succ k ih => exact ih (hstep s h)

end Sys2Proof.Machine
end

