-- ==== Sys2Proof/Laws/Varint.lean ====
section
/-!
SUPPORT. The checks and helpers of the varint family as numbers, and the responses case by case.
-/

namespace Sys2Proof.Machine

theorem outOfDomain_iff (v : Word) : outOfDomain v = true ↔ 2 ^ 62 ≤ v.toNat := by
  have hv := v.isLt
  have h : v.extractLsb' 62 2 = 0b00#2 ↔ v.toNat / 2 ^ 62 % 2 ^ 2 = 0 := by
    rw [← BitVec.toNat_inj, toNat_extract]
    rfl
  rw [outOfDomain, bne_iff_ne, ne_eq, h]
  omega

theorem outOfDomain_eq_false_iff (v : Word) : outOfDomain v = false ↔ v.toNat < 2 ^ 62 := by
  rw [← Bool.not_eq_true, outOfDomain_iff, Nat.not_le]

@[simp] theorem tooShort_iff (a l : Nat) : tooShort a l = true ↔ a < l := by simp [tooShort]

@[simp] theorem tooShort_eq_false_iff (a l : Nat) : tooShort a l = false ↔ l ≤ a := by simp [tooShort]

theorem Tier.one_le_len (t : Tier) : 1 ≤ t.len := by cases t <;> decide

theorem Tier.len_le (t : Tier) : t.len ≤ 8 := by cases t <;> decide

@[simp] theorem Tier.toNat_lenField (t : Tier) : t.lenField.toNat = t.len := by cases t <;> rfl

theorem Tier.len_injective {t u : Tier} (h : t.len = u.len) : t = u := by
  cases t <;> cases u <;> simp_all [Tier.len]

theorem Tier.lenField_inj {t u : Tier} : t.lenField = u.lenField ↔ t = u :=
  ⟨fun h => Tier.len_injective (by rw [← Tier.toNat_lenField, ← Tier.toNat_lenField, h]), fun h => by rw [h]⟩

/-- `LenTag` is the inverse of `TagLen` (41_varint.md R101). -/
@[simp] theorem tagLen_lenTag (t : Tier) : tagLen (lenTag t) = t := by cases t <;> rfl

@[simp] theorem lenTag_tagLen (t : BitVec 2) : lenTag (tagLen t) = t := by
  revert t
  decide

/-- `TagLen(t) = 2^t` (41_varint.md R100). -/
theorem len_tagLen (t : BitVec 2) : (tagLen t).len = 2 ^ t.toNat := by
  revert t
  decide

/-- In the domain, the value fits the tier `MinLen` selects. -/
theorem minLen_fits {v : Word} (h : v.toNat < 2 ^ 62) : v.toNat < 2 ^ (minLen v).usableBits := by
  unfold minLen
  split_ifs <;> simp only [Tier.usableBits, Tier.len] <;> omega

/-- The encoding as a number: the tag above the value (30_encoding.md R74). -/
theorem toNat_varintEncoding {t : Tier} {v : Word} (h : v.toNat < 2 ^ t.usableBits) :
    (varintEncoding t v).toNat = (lenTag t).toNat * 2 ^ t.usableBits + v.toNat := by
  rw [varintEncoding, toNat_append_eq, toNat_extract, pow_zero, Nat.div_one, Nat.mod_eq_of_lt h]

/-- The tag as a number: the top two bits of the lanes (30_encoding.md R73). -/
theorem toNat_varintTag (o : Operands) : (varintTag o).toNat = o.bytes.toNat / 2 ^ 62 := by
  have := o.bytes.isLt
  rw [varintTag, toNat_extract]
  omega

/-- The decoded value as a number: the top 8L bits of the lanes, the two tag bits dropped (41_varint.md R110). -/
theorem toNat_varintValue (t : Tier) (o : Operands) :
    (varintValue t (varintField t o)).toNat = o.bytes.toNat / 2 ^ (64 - 8 * t.len) % 2 ^ t.usableBits := by
  have := o.bytes.isLt
  rw [varintValue, BitVec.toNat_setWidth, toNat_extract, varintField, toNat_extract]
  cases t <;> simp only [Tier.usableBits, Tier.len] <;> omega

/-- Dropping the tag bits is masking the field with the tier's value mask, `2^(8L-2) - 1` (41_varint.md R100). -/
theorem toNat_varintValue_mask (t : Tier) (o : Operands) :
    (varintValue t (varintField t o)).toNat =
      o.bytes.toNat / 2 ^ (64 - 8 * t.len) &&& (2 ^ t.usableBits - 1) := by
  rw [toNat_varintValue, Nat.and_two_pow_sub_one_eq_mod]

/-! ## Responses -/

theorem vencRsp_range {o : Operands} (h : 2 ^ 62 ≤ o.val.toNat) : vencRsp o = raise .range := by
  rw [vencRsp, if_pos ((outOfDomain_iff _).mpr h)]

theorem vencRsp_short {o : Operands} (h : o.val.toNat < 2 ^ 62) (hs : sat8 o.len < (minLen o.val).len) :
    vencRsp o = raise .bufShort := by
  rw [vencRsp, if_neg (by rw [outOfDomain_iff]; omega), if_pos (by simpa using hs)]

theorem vencRsp_ok {o : Operands} (h : o.val.toNat < 2 ^ 62) (hs : (minLen o.val).len ≤ sat8 o.len) :
    vencRsp o = ⟨.ok, false, (minLen o.val).lenField, 0#64,
      placeHigh (2 + (minLen o.val).usableBits) (varintEncoding (minLen o.val) o.val)⟩ := by
  rw [vencRsp, if_neg (by rw [outOfDomain_iff]; omega), if_neg (by simpa using hs)]
  rfl

/-- VENC's lanes as a number: the tag and the value in the top 8L bits. -/
theorem toNat_venc_bytes {v : Word} (h : v.toNat < 2 ^ 62) :
    (placeHigh (2 + (minLen v).usableBits) (varintEncoding (minLen v) v)).toNat =
      ((lenTag (minLen v)).toNat * 2 ^ (minLen v).usableBits + v.toNat) * 2 ^ (64 - 8 * (minLen v).len) := by
  have hf := minLen_fits h
  rw [toNat_placeHigh (by cases minLen v <;> decide), toNat_varintEncoding hf]
  congr 2
  cases minLen v <;> rfl

theorem vdecRsp_short {o : Operands} (h : sat8 o.len < (tagLen (varintTag o)).len) : vdecRsp o = raise .bufShort := by
  unfold vdecRsp
  split
  · rfl
  · rw [if_pos (by simpa using h)]

theorem vdecRsp_ok {o : Operands} (h : (tagLen (varintTag o)).len ≤ sat8 o.len) :
    vdecRsp o = ⟨.ok, false, (tagLen (varintTag o)).lenField,
      varintValue (tagLen (varintTag o)) (varintField (tagLen (varintTag o)) o), 0#64⟩ := by
  have h1 := (tagLen (varintTag o)).one_le_len
  rw [vdecRsp, if_neg (by rw [tooShort_iff]; omega), if_neg (by rw [tooShort_iff]; omega)]
  rfl

theorem vcanonRsp_out {o : Operands} (h : 2 ^ 62 ≤ o.val.toNat) : vcanonRsp o = Rsp.zero := by
  rw [vcanonRsp, if_pos ((outOfDomain_iff _).mpr h)]

theorem vcanonRsp_in {o : Operands} (h : o.val.toNat < 2 ^ 62) :
    vcanonRsp o = ⟨.ok, o.len == (minLen o.val).lenField, (minLen o.val).lenField, 0#64, 0#64⟩ := by
  rw [vcanonRsp, if_neg (by rw [outOfDomain_iff]; omega)]
  rfl

end Sys2Proof.Machine
end

