-- ==== Sys2Proof/Tests/Slice0.lean ====
section
/-!
SUPPORT. Tests. Expected words and responses are those of 95_test_vectors.md, or written out from the encodings of
30_encoding.md; each test is one edge on a small state. The witnesses show states and operands that meet the hypotheses
of the statements in Certificates/Slice0/Obligations.lean.
-/

namespace Sys2Proof.Tests

open Sys2Proof Sys2Proof.Machine

/-! ## Decoding: words of 95_test_vectors.md, and one word written bit by bit per family -/

theorem test_decode_fenc16 : decode 0x1000000000000012340000000000000000#136 = .instr (.fenc16 ⟨0#4, 0x1234#64, 0#64⟩) := by
  decide
theorem test_decode_fenc32 : decode 0x20000000001d7f3e7d0000000000000000#136 = .instr (.fenc32 ⟨0#4, 0x1d7f3e7d#64, 0#64⟩) := by
  decide
theorem test_decode_fenc64 : decode 0x300123456789abcdef0000000000000000#136 = .instr (.fenc64 ⟨0#4, 0x123456789abcdef#64, 0#64⟩) := by
  decide
theorem test_decode_fdec16 :
    decode 0x500000000000000000123456789abcdef0#136 = .instr (.fdec16 ⟨0#4, 0#64, 0x123456789abcdef0#64⟩) := by
  decide
theorem test_decode_fdec32 :
    decode 0x610000000000000000ffffffff11000000#136 = .instr (.fdec32 ⟨1#4, 0#64, 0xffffffff11000000#64⟩) := by
  decide
theorem test_decode_fdec64 :
    decode 0x700000000000000000c2197c5eff14e88c#136 = .instr (.fdec64 ⟨0#4, 0#64, 0xc2197c5eff14e88c#64⟩) := by
  decide
theorem test_decode_venc : decode 0x8f3fffffffffffffff0000000000000000#136 = .instr (.venc ⟨15#4, 0x3fffffffffffffff#64, 0#64⟩) := by
  decide
theorem test_decode_vdec : decode 0x9200000000000000004025000000000000#136 = .instr (.vdec ⟨2#4, 0#64, 0x4025000000000000#64⟩) := by
  decide
theorem test_decode_vcanon : decode 0xa200000000000000250000000000000000#136 = .instr (.vcanon ⟨2#4, 37#64, 0#64⟩) := by
  decide
theorem test_decode_reserved : decode 0xf800000000000000252500000000000000#136 = .reservedOp 0xF#4 := by decide

/-- FENC16, `op = 0001`, `len = 0010`, `val` = 1, `bytes` = lane 7 only. -/
theorem test_decode_bits_fixed :
    decode (0b0001#4 ++ 0b0010#4 ++ (0#63 ++ 0b1#1) ++ (0#56 ++ 0b00000011#8) : ReqBundle) = .instr (.fenc16 ⟨2#4, 1#64, 3#64⟩) := by
  decide

/-- VDEC, `op = 1001`, `len = 0010`, lanes 0 and 1 = 01000000 00100101. -/
theorem test_decode_bits_varint :
    decode (0b1001#4 ++ 0b0010#4 ++ 0#64 ++ (0b01000000#8 ++ 0b00100101#8 ++ 0#48) : ReqBundle) =
      .instr (.vdec ⟨2#4, 0#64, 0x4025000000000000#64⟩) := by
  decide

/-- The host's table word of VCANON, every bit outside `op` zero, and one of a reserved op. -/
theorem test_decodeTableWord :
    decodeTableWord 136 0xa000000000000000000000000000000000 = some (.vcanon ⟨0#4, 0#64, 0#64⟩) ∧
      decodeTableWord 136 0x4000000000000000000000000000000000 = none := by
  decide

/-! ## Assembler lines: each check refuses an ill-formed line -/

theorem test_wellFormed_accepts : ({ op := .venc, len := some 15, val := some (2 ^ 64 - 1) } : AsmLine).wellFormed = true := by
  decide
theorem test_lenFits_refuses : ({ op := .venc, len := some 16 } : AsmLine).wellFormed = false := by decide
theorem test_valFits_refuses : ({ op := .venc, val := some (2 ^ 64) } : AsmLine).wellFormed = false := by decide
theorem test_lanesFit_refuses :
    ({ op := .vdec, bytes := some [1, 2, 3, 4, 5, 6, 7, 8, 9] } : AsmLine).wellFormed = false := by decide
theorem test_bytesFit_refuses : ({ op := .vdec, bytes := some [256] } : AsmLine).wellFormed = false := by decide
theorem test_opFits_refuses : ({ op := .rsvd 1 } : AsmLine).wellFormed = false := by decide

/-- `VDEC len=2, bytes=40 25` (95_test_vectors.md, S3). -/
theorem test_assemble :
    ({ op := .vdec, len := some 2, bytes := some [0x40, 0x25] } : AsmLine).assemble = 0x9200000000000000004025000000000000#136 := by
  decide

/-! ## One edge per test: the response bundle of 95_test_vectors.md -/

/-- The response that stands at the outputs after one edge with the request, from reset at the default latency, is the
given one (95_test_vectors.md writes `RSP` with bit 135 shown as 0). -/
def performs (req : ReqBundle) (rsp : RspBundle) : Bool :=
  match step (State.reset.present ⟨false, true, req⟩) with
  | .next t => t.outputs.outValid && t.last.r.pack == rsp
  | .fault _ => false
  | .refused _ => false

theorem test_fenc16_upper_bits_ignored :
    performs 0x1fdeadbeef00001234aaaaaaaaaaaaaaaa#136 0x0200000000000000001234000000000000#135 = true := by decide
theorem test_fenc16_max : performs 0x10000000000000ffff0000000000000000#136 0x020000000000000000ffff000000000000#135 = true := by
  decide
theorem test_fenc32_bit_dropped :
    performs 0x2000000001ffffffff0000000000000000#136 0x040000000000000000ffffffff00000000#135 = true := by decide
theorem test_fenc32_pattern :
    performs 0x20000000001d7f3e7d0000000000000000#136 0x0400000000000000001d7f3e7d00000000#135 = true := by decide
theorem test_fenc64_lsb_in_lane7 :
    performs 0x3000000000000000010000000000000000#136 0x0800000000000000000000000000000001#135 = true := by decide
theorem test_fenc64_pattern :
    performs 0x300123456789abcdef0000000000000000#136 0x0800000000000000000123456789abcdef#135 = true := by decide
theorem test_fdec16_other_lanes_ignored :
    performs 0x500000000000000000123456789abcdef0#136 0x0200000000000012340000000000000000#135 = true := by decide
theorem test_fdec16_val_ignored :
    performs 0x50000000000000ffff0001000000000000#136 0x0200000000000000010000000000000000#135 = true := by decide
theorem test_fdec32_tag_is_value :
    performs 0x6000000000000000009d7f3e7d00000000#136 0x04000000009d7f3e7d0000000000000000#135 = true := by decide
theorem test_fdec32_len_ignored :
    performs 0x610000000000000000ffffffff11000000#136 0x0400000000ffffffff0000000000000000#135 = true := by decide
theorem test_fdec64_pattern :
    performs 0x700000000000000000c2197c5eff14e88c#136 0x08c2197c5eff14e88c0000000000000000#135 = true := by decide
theorem test_fdec64_lane7_is_lsb :
    performs 0x7000000000000000000000000000000001#136 0x0800000000000000010000000000000000#135 = true := by decide
theorem test_venc_tier4_bottom :
    performs 0x8800000000000040000000000000000000#136 0x0400000000000000008000400000000000#135 = true := by decide
theorem test_venc_range_before_short :
    performs 0x8040000000000000000000000000000000#136 0x4000000000000000000000000000000000#135 = true := by decide
theorem test_vdec_non_canonical :
    performs 0x980000000000000000c00000001d7f3e7d#136 0x08000000001d7f3e7d0000000000000000#135 = true := by decide
theorem test_vdec_short : performs 0x970000000000000000ffffffffffffffff#136 0x2000000000000000000000000000000000#135 = true := by
  decide
theorem test_vcanon_no_saturation :
    performs 0xa900000000400000000000000000000000#136 0x0800000000000000000000000000000000#135 = true := by decide
theorem test_vcanon_canonical :
    performs 0xa400000000000040000000000000000000#136 0x1400000000000000000000000000000000#135 = true := by decide
theorem test_reserved : performs 0xf800000000000000252500000000000000#136 0x6000000000000000000000000000000000#135 = true := by
  decide

/-- A step from reset with the table's word on the pins is the word's operation. -/
theorem test_withFetchWord :
    step (State.reset.withFetchWord 136 0x8800000000000000250000000000000000) = exec (.venc ⟨8#4, 37#64, 0#64⟩) State.reset := by
  rfl

/-- Writing a lane with other content: lane 1 of `aa bb cc …` becomes 11 (00_scope.md R11). -/
theorem test_setLane : setLane 0xaabbccddeeff0011#64 1 0x11#8 = 0xaa11ccddeeff0011#64 := by decide

/-! ## A small pipeline of two stages, and operands for the witnesses -/

/-- `LAT = 2`, a valid response in `S[1]`, nothing in `S[2]`, and three samples ahead: a request, an idle edge, a reset. -/
def small : State :=
  { s1 := ⟨true, ⟨.ok, false, 1#4, 37#64, 0#64⟩⟩
    later := [Stage.empty]
    inputs := [⟨false, true, 0x8800000000000000250000000000000000#136⟩, ⟨false, false, 5#136⟩, ⟨true, true, 7#136⟩]
    phase := .ready }

/-- The state after an operation's edge on `small`. -/
def after (i : Instr) : State := small.respond (execRsp (encode i))

theorem exec_after (i : Instr) : exec i small = .next (after i) := exec_eq_respond i small

/-- 37, for an 8-byte buffer. -/
def enc37 : Operands := ⟨8#4, 37#64, 0#64⟩
/-- `25`. -/
def dec37 : Operands := ⟨1#4, 0#64, 0x2500000000000000#64⟩
/-- `40 25`, the non-canonical 37. -/
def dec37long : Operands := ⟨2#4, 0#64, 0x4025000000000000#64⟩
/-- VCANON of 37 at length 1. -/
def canon37 : Operands := ⟨1#4, 37#64, 0#64⟩

/-- A machine of two stages just powered up, with a request, an idle edge, a reset edge and an idle edge ahead. -/
def unset : State :=
  State.powerUp 2 0 [⟨false, true, encode (.venc enc37)⟩, ⟨false, false, 0#136⟩, ⟨true, true, 7#136⟩, ⟨false, false, 0#136⟩]

/-- A request before the first reset edge leaves every stage the free value it was drawn to be, and the reset edge after
it clears both (70_reset_and_hazards.md R162). -/
theorem test_unreset_request :
    step unset = .next { s1 := unspecifiedStage 0 [⟨false, true, encode (.venc enc37)⟩] 1
                         later := [unspecifiedStage 0 [⟨false, true, encode (.venc enc37)⟩] 2]
                         inputs := unset.inputs.tail
                         phase := .unreset 0 [⟨false, true, encode (.venc enc37)⟩] } := rfl

theorem test_unreset_reset :
    step (unset.present ⟨true, true, 7#136⟩) = .next { State.resetWith 2 with inputs := unset.inputs.tail } := rfl

theorem small_is_Inv : small.Inv := by decide

/-! ## Witnesses for hypotheses -/

theorem witness_EncodeOfDecodeIsIdentity : decode (encode (.vdec dec37)) = .instr (.vdec dec37) := by decide

theorem witness_OpcodeMapAsTabulated :
    0b1111#4 ∈ [0b0000#4, 0b0100#4, 0b1011#4, 0b1100#4, 0b1101#4, 0b1110#4, 0b1111#4] ∧
      decode (encode (.fdec64 dec37)) = .instr (.fdec64 dec37) ∧ (0b0001#4).extractLsb' 0 2 ≠ 0b00#2 := by decide

theorem witness_AssemblerLineEncoding :
    ({ op := .fdec64, len := some 15, val := some (2 ^ 64 - 1), bytes := some [255, 0, 0, 0, 0, 0, 0, 255] } : AsmLine).wellFormed
        = true ∧
      ({ op := .rsvd 15 } : AsmLine).wellFormed = true := by decide

theorem witness_StepRunsDecodedInstruction :
    small.inputs.head? = some ⟨false, true, encode (.venc enc37)⟩ ∧ decode (encode (.venc enc37)) = .instr (.venc enc37) := by
  decide

theorem witness_ReservedOpAnswersIllegalOp :
    small.phase = .ready ∧
      (small.present ⟨false, true, 0xF#4 ++ 0#132⟩).inputs.head? = some ⟨false, true, 0xF#4 ++ 0#132⟩ ∧
      (0xF#4 ++ 0#132 : ReqBundle).extractLsb' 132 4 ∈ [0x0#4, 0x4#4, 0xB#4, 0xC#4, 0xD#4, 0xE#4, 0xF#4] := by decide

theorem witness_IssueRule :
    small.phase = .ready ∧ (small.present ⟨false, false, 9#136⟩).inputs.head? = some ⟨false, false, 9#136⟩ ∧
      small.inputs.head? = some ⟨false, true, encode (.venc enc37)⟩ := by decide

/-- Each kind of edge, and a `k` at the boundary of a two-stage pipeline. -/
theorem witness_StateUpdatePerStage :
    small.phase = .ready ∧ small.inputs.head? = some ⟨false, true, encode (.venc enc37)⟩ ∧
      (small.present ⟨false, false, 0#136⟩).inputs.head? = some ⟨false, false, 0#136⟩ ∧
      (small.present ⟨true, true, 0#136⟩).inputs.head? = some ⟨true, true, 0#136⟩ ∧
      1 < small.stages.length ∧ 0 + 1 < small.stages.length := by decide

theorem witness_ResetEdgeDiscardsEverything :
    (small.present ⟨true, true, 3#136⟩).inputs.head? = some ⟨true, true, 3#136⟩ ∧
      ((after (.vdec dec37)).present ⟨true, false, 0#136⟩).inputs.head? = some ⟨true, false, 0#136⟩ ∧
      (small.present ⟨true, true, 3#136⟩).lat = ((after (.vdec dec37)).present ⟨true, false, 0#136⟩).lat ∧
      (small.present ⟨true, true, 3#136⟩).inputs.tail = ((after (.vdec dec37)).present ⟨true, false, 0#136⟩).inputs.tail := by
  decide

/-- Two edges before the reset edge, a request among them, and an idle edge after it. -/
theorem witness_OneResetEdgeAfterPowerUp :
    1 ≤ 2 ∧ unset = State.powerUp 2 0 ([⟨false, true, encode (.venc enc37)⟩, ⟨false, false, 0#136⟩] ++ ⟨true, true, 7#136⟩ ::
        [⟨false, false, 0#136⟩]) ∧
      (∀ e ∈ [(⟨false, true, encode (.venc enc37)⟩ : EdgeInput), ⟨false, false, 0#136⟩], e.rst = false) ∧
      ∀ e ∈ [(⟨false, false, 0#136⟩ : EdgeInput)].take (2 + 1 - 2), e.inValid = false ∨ e.rst = true :=
  ⟨by decide, rfl, by decide, by decide⟩

theorem witness_UnresetEdgeLeavesStagesUnspecified :
    unset.phase = .unreset 0 [] ∧ unset.inputs.head? = some ⟨false, true, encode (.venc enc37)⟩ :=
  ⟨rfl, rfl⟩

/-- An edge with reset and one without. -/
theorem witness_ReadyExactlyFromFirstResetEdge :
    (unset.present ⟨true, false, 0#136⟩).inputs.head? = some ⟨true, false, 0#136⟩ ∧
      step (unset.present ⟨true, false, 0#136⟩) = .next (unset.present ⟨true, false, 0#136⟩).edge ∧
      unset.inputs.head? = some ⟨false, true, encode (.venc enc37)⟩ ∧ step unset = .next unset.edge :=
  ⟨rfl, step_eq_edge _, rfl, step_eq_edge _⟩

theorem witness_OutputsAreLastStage : small.stages[small.lat - 1]? = some Stage.empty := by decide

/-- The selector hypothesis of each result statement, on that operation's own bundle. -/
theorem witness_results_selector :
    (encode (.fenc16 enc37)).extractLsb' 132 4 = 0b0001#4 ∧ (encode (.fenc32 enc37)).extractLsb' 132 4 = 0b0010#4 ∧
      (encode (.fenc64 enc37)).extractLsb' 132 4 = 0b0011#4 ∧ (encode (.fdec16 dec37)).extractLsb' 132 4 = 0b0101#4 ∧
      (encode (.fdec32 dec37)).extractLsb' 132 4 = 0b0110#4 ∧ (encode (.fdec64 dec37)).extractLsb' 132 4 = 0b0111#4 ∧
      (encode (.venc enc37)).extractLsb' 132 4 = 0b1000#4 ∧ (encode (.vdec dec37)).extractLsb' 132 4 = 0b1001#4 ∧
      (encode (.vcanon canon37)).extractLsb' 132 4 = 0b1010#4 := by decide

theorem witness_FixedWidthPseudocode :
    (Instr.fenc64, Instr.fdec64, 64) ∈
      [(Instr.fenc16, Instr.fdec16, 16), (Instr.fenc32, Instr.fdec32, 32), (Instr.fenc64, Instr.fdec64, 64)] := by simp

/-- The last byte of each width. -/
theorem witness_FixedWidthBytesAreBigEndian :
    small.phase = .ready ∧ (Instr.fenc64, Instr.fdec64, 64) ∈
      [(Instr.fenc16, Instr.fdec16, 16), (Instr.fenc32, Instr.fdec32, 32), (Instr.fenc64, Instr.fdec64, 64)] ∧
      8 * (7 : Fin 8).val < 64 ∧ 8 * (3 : Fin 8).val < 32 ∧ 8 * (1 : Fin 8).val < 16 := by
  refine ⟨rfl, by simp, by decide, by decide, by decide⟩

theorem witness_FixedWidthRoundTrips :
    small.phase = .ready ∧ (⟨0#4, 0xFFFF#64, 0#64⟩ : Operands).val.toNat < 2 ^ 16 ∧
      exec (.fenc16 ⟨0#4, 0xFFFF#64, 0#64⟩) small = .next (after (.fenc16 ⟨0#4, 0xFFFF#64, 0#64⟩)) ∧
      (⟨0#4, 0#64, 0xFFFF000000000000#64⟩ : Operands).bytes = (after (.fenc16 ⟨0#4, 0xFFFF#64, 0#64⟩)).s1.r.bytes ∧
      exec (.fdec16 ⟨0#4, 0#64, 0xFFFF000000000000#64⟩) small = .next (after (.fdec16 ⟨0#4, 0#64, 0xFFFF000000000000#64⟩)) ∧
      (⟨0#4, 0xFFFF#64, 0#64⟩ : Operands).val = (after (.fdec16 ⟨0#4, 0#64, 0xFFFF000000000000#64⟩)).s1.r.val :=
  ⟨rfl, by decide, exec_after _, by decide, exec_after _, by decide⟩

theorem witness_MixedWidthsShareLanes :
    small.phase = .ready ∧
      exec (.fdec16 dec37) small = .next (after (.fdec16 dec37)) ∧ exec (.fdec32 dec37) small = .next (after (.fdec32 dec37)) ∧
      exec (.fdec64 dec37) small = .next (after (.fdec64 dec37)) ∧
      (⟨0#4, 0x0025000000000000#64, 0#64⟩ : Operands).val = enc37.val <<< 48 ∧
      exec (.fenc16 enc37) small = .next (after (.fenc16 enc37)) ∧
      exec (.fenc64 ⟨0#4, 0x0025000000000000#64, 0#64⟩) small = .next (after (.fenc64 ⟨0#4, 0x0025000000000000#64, 0#64⟩)) :=
  ⟨rfl, exec_after _, exec_after _, exec_after _, by decide, exec_after _, exec_after _⟩

theorem witness_MinLenIsShortestAndPrioritySelect :
    (0x3FFFFFFFFFFFFFFF#64).toNat < 2 ^ 62 ∧ (63#64).toNat < 2 ^ (8 * 1 - 2) ∧ 1 ∈ [1, 2, 4, 8] := by decide

theorem witness_MinLenMonotoneWithBoundaries :
    (63#64).toNat ≤ (64#64).toNat ∧ (64#64).toNat < 2 ^ 62 := by decide

theorem witness_CanonicalRoundTrip :
    small.phase = .ready ∧
      enc37.len = 8#4 ∧ enc37.val.toNat < 2 ^ 62 ∧ exec (.venc enc37) small = .next (after (.venc enc37)) ∧
      dec37.len = (after (.venc enc37)).s1.r.len ∧ dec37.bytes = (after (.venc enc37)).s1.r.bytes ∧
      exec (.vdec dec37) small = .next (after (.vdec dec37)) ∧ canon37.len = (after (.vdec dec37)).s1.r.len ∧
      canon37.val = (after (.vdec dec37)).s1.r.val ∧ exec (.vcanon canon37) small = .next (after (.vcanon canon37)) ∧
      enc37.val = (after (.vdec dec37)).s1.r.val :=
  ⟨rfl, by decide, by decide, exec_after _, by decide, by decide, exec_after _, by decide, by decide, exec_after _, by decide⟩

theorem witness_NonCanonicalDecode :
    small.phase = .ready ∧ (37#64).toNat < 2 ^ 62 ∧ (1, 2) ∈ [(0, 1), (1, 2), (2, 4), (3, 8)] ∧ (minLen 37#64).len < 2 ∧
      dec37long.bytes.toNat / 2 ^ (64 - 8 * 2) = 1 * 2 ^ (8 * 2 - 2) + (37#64).toNat ∧ 2 ≤ dec37long.len.toNat ∧
      exec (.vdec dec37long) small = .next (after (.vdec dec37long)) ∧
      exec (.vcanon ⟨2#4, 37#64, 0#64⟩) small = .next (after (.vcanon ⟨2#4, 37#64, 0#64⟩)) :=
  ⟨rfl, by decide, by decide, by decide, by decide, by decide, exec_after _, exec_after _⟩

/-- The top of the tier below, at length 8. -/
theorem witness_NonCanonicalDecode_boundary :
    (0x3FFFFFFF#64).toNat < 2 ^ 62 ∧ (3, 8) ∈ [(0, 1), (1, 2), (2, 4), (3, 8)] ∧ (minLen 0x3FFFFFFF#64).len < 8 ∧
      (0xC00000003FFFFFFF#64).toNat / 2 ^ (64 - 8 * 8) = 3 * 2 ^ (8 * 8 - 2) + (0x3FFFFFFF#64).toNat := by decide

theorem witness_CanonicalFormsAgreeOnDecoded :
    small.phase = .ready ∧
      exec (.vdec dec37) small = .next (after (.vdec dec37)) ∧ (after (.vdec dec37)).s1.r.err = .ok ∧
      canon37.len = (after (.vdec dec37)).s1.r.len ∧ canon37.val = (after (.vdec dec37)).s1.r.val ∧
      exec (.vcanon canon37) small = .next (after (.vcanon canon37)) :=
  ⟨rfl, exec_after _, by decide, by decide, by decide, exec_after _⟩

theorem witness_CanonicalEncodingIsUnique :
    small.phase = .ready ∧
      exec (.vdec dec37) small = .next (after (.vdec dec37)) ∧ (after (.vdec dec37)).s1.r.err = .ok ∧
      canon37.len = (after (.vdec dec37)).s1.r.len ∧ canon37.val = (after (.vdec dec37)).s1.r.val ∧
      exec (.vcanon canon37) small = .next (after (.vcanon canon37)) ∧ (after (.vcanon canon37)).s1.r.canon = true ∧
      enc37.len = 8#4 ∧ enc37.val = (after (.vdec dec37)).s1.r.val ∧ exec (.venc enc37) small = .next (after (.venc enc37)) :=
  ⟨rfl, exec_after _, by decide, by decide, by decide, exec_after _, by decide, by decide, by decide, exec_after _⟩

theorem witness_ErrorCodesExactlyByCause :
    small.phase = .ready ∧ exec (.vdec ⟨0#4, 0#64, 0#64⟩) small = .next (after (.vdec ⟨0#4, 0#64, 0#64⟩)) ∧
      small.inputs.head? = some ⟨false, true, encode (.venc enc37)⟩ ∧ step small = .next small.edge :=
  ⟨rfl, exec_after _, by decide, step_eq_edge _⟩

theorem witness_ErrorResponseIsOtherwiseZero :
    small.phase = .ready ∧ (small.present ⟨false, true, encode (.venc ⟨0#4, 37#64, 0#64⟩)⟩).inputs.head? =
        some ⟨false, true, encode (.venc ⟨0#4, 37#64, 0#64⟩)⟩ ∧
      step (small.present ⟨false, true, encode (.venc ⟨0#4, 37#64, 0#64⟩)⟩) =
        .next (small.present ⟨false, true, encode (.venc ⟨0#4, 37#64, 0#64⟩)⟩).edge ∧
      (small.present ⟨false, true, encode (.venc ⟨0#4, 37#64, 0#64⟩)⟩).edge.s1.r.err ≠ .ok :=
  ⟨rfl, by decide, step_eq_edge _, by decide⟩

/-- Each clause at a boundary: a reserved op, 2^62 with capacity 0, and length 0 beside a tag 11 with 7 lanes. -/
theorem witness_ErrorPriority :
    small.phase = .ready ∧
      ((0xB#4 ++ 0#132 : ReqBundle).extractLsb' 132 4 ∈ [0x0#4, 0x4#4, 0xB#4, 0xC#4, 0xD#4, 0xE#4, 0xF#4]) ∧
      step (small.present ⟨false, true, 0xB#4 ++ 0#132⟩) = .next (small.present ⟨false, true, 0xB#4 ++ 0#132⟩).edge ∧
      2 ^ 62 ≤ (0x4000000000000000#64).toNat ∧
      exec (.venc ⟨0#4, 0x4000000000000000#64, 0#64⟩) small = .next (after (.venc ⟨0#4, 0x4000000000000000#64, 0#64⟩)) ∧
      1 ≤ (7#4).toNat ∧ min (7#4).toNat 8 < 2 ^ ((0xC000000000000000#64).extractLsb' 62 2).toNat ∧
      exec (.vdec ⟨0#4, 0#64, 0#64⟩) small = .next (after (.vdec ⟨0#4, 0#64, 0#64⟩)) ∧
      exec (.vdec ⟨7#4, 0#64, 0xC000000000000000#64⟩) small = .next (after (.vdec ⟨7#4, 0#64, 0xC000000000000000#64⟩)) :=
  ⟨rfl, by decide, step_eq_edge _, by decide, exec_after _, by decide, by decide, exec_after _, exec_after _⟩

/-- A success and a failure. -/
theorem witness_EncodeOutputWindow :
    small.phase = .ready ∧ Instr.venc enc37 ∈ [Instr.fenc16 enc37, .fenc32 enc37, .fenc64 enc37, .venc enc37] ∧
      exec (.venc enc37) small = .next (after (.venc enc37)) ∧ (after (.venc enc37)).s1.r.err = .ok ∧
      exec (.venc ⟨0#4, 37#64, 0#64⟩) small = .next (after (.venc ⟨0#4, 37#64, 0#64⟩)) ∧
      (after (.venc ⟨0#4, 37#64, 0#64⟩)).s1.r.err ≠ .ok :=
  ⟨rfl, by decide, exec_after _, by decide, exec_after _, by decide⟩

theorem witness_ExecFrame :
    small.phase = .ready ∧ exec (.fenc64 enc37) small = .next (after (.fenc64 enc37)) ∧ 0 + 1 < small.lat :=
  ⟨rfl, exec_after _, by decide⟩

theorem witness_ResponsesIndependentOfHistory :
    small.phase = .ready ∧
      (⟨false, true, encode (.venc enc37)⟩ : EdgeInput).rst = false ∧ EdgeInput.idle.rst = false := by decide

/-- Operands that agree on what is read and differ elsewhere, operation by operation. -/
theorem witness_UnreadBitsNeverMatter :
    small.phase = .ready ∧ (0xFFFFFFFFFFFF1234#64).extractLsb' 0 16 = (0x1234#64).extractLsb' 0 16 ∧
      (0xFFFFFFFF12345678#64).extractLsb' 0 32 = (0x12345678#64).extractLsb' 0 32 ∧
      (∀ k : Fin 8, k.val < 2 → lane 0x1234FFFFFFFFFFFF#64 k = lane 0x1234000000000000#64 k) ∧
      (∀ k : Fin 8, k.val < 4 → lane 0x12345678FFFFFFFF#64 k = lane 0x1234567800000000#64 k) ∧
      min (8#4).toNat 8 = min (15#4).toNat 8 ∧
      (∀ k : Fin 8, k.val < 2 ^ (dec37long.bytes.extractLsb' 62 2).toNat →
        lane dec37long.bytes k = lane 0x4025FFFFFFFFFFFF#64 k) ∧
      (0xB#4 ++ 0#132 : ReqBundle).extractLsb' 132 4 = (0xB#4 ++ 1#132 : ReqBundle).extractLsb' 132 4 ∧
      (0xB#4 ++ 0#132 : ReqBundle).extractLsb' 132 4 ∈ [0x0#4, 0x4#4, 0xB#4, 0xC#4, 0xD#4, 0xE#4, 0xF#4] := by decide

/-- Four bytes available, for FDEC32 and for VDEC. -/
theorem witness_LanesPastTheBufferAreIgnored :
    small.phase = .ready ∧
    (∀ k : Fin 8, k.val < 4 → lane 0x9d7f3e7dFFFFFFFF#64 k = lane 0x9d7f3e7d00000000#64 k) ∧
      (Instr.fdec32 ⟨4#4, 0#64, 0x9d7f3e7dFFFFFFFF#64⟩).presentedEnough 4 = true ∧ 4 = min (4#4).toNat 8 := by decide

/-- A three-byte buffer, one byte left for 37 (it fits), none left (it does not). -/
theorem witness_VarintThroughCallersBuffer :
    small.phase = .ready ∧
      2 ≤ [0xAA#8, 0xBB#8, 0xCC#8].length ∧ (37#64).toNat < 2 ^ 62 ∧ dec37.len = lenOperand ([0xAA#8, 0xBB#8, 0xCC#8].length - 2) ∧
      exec (.venc ⟨1#4, 37#64, 0#64⟩) small = .next (after (.venc ⟨1#4, 37#64, 0#64⟩)) ∧
      (after (.venc ⟨1#4, 37#64, 0#64⟩)).s1.r.err = .ok ∧
      dec37.bytes = inputWindow (storeAt [0xAA#8, 0xBB#8, 0xCC#8] 2 (after (.venc ⟨1#4, 37#64, 0#64⟩)).s1.r) 2 ∧
      exec (.vdec dec37) small = .next (after (.vdec dec37)) ∧
      (0#4 : LenField) = lenOperand ([0xAA#8, 0xBB#8, 0xCC#8].length - 3) ∧
      (after (.venc ⟨0#4, 37#64, 0#64⟩)).s1.r.err ≠ .ok :=
  ⟨rfl, by decide, by decide, by decide, exec_after _, by decide, by decide, exec_after _, by decide, by decide⟩

/-- The smallest latency there is. -/
theorem witness_InvHoldsAtReset : 1 ≤ State.reset.lat ∧ State.reset.lat = 1 := by decide

theorem witness_UnspecifiedOrInvHoldsAtPowerUp : 1 ≤ (State.powerUp 1 0 []).lat ∧ (State.powerUp 1 0 []).lat = 1 := by
  decide

theorem witness_InvHoldsAfterLatEdges :
    (unset.present ⟨true, false, 0#136⟩).inputs.head? = some ⟨true, false, 0#136⟩ ∧ small.phase = .ready := ⟨rfl, rfl⟩

theorem witness_EveryStepKeepsUnspecifiedOrInv :
    unset.UnspecifiedOrInv ∧ step unset = .next unset.edge ∧ small.UnspecifiedOrInv ∧ step small = .next small.edge :=
  ⟨.inl ⟨0, [], rfl, powerUp_stages (by decide) 0 _⟩, step_eq_edge _, .inr small_is_Inv, step_eq_edge _⟩

theorem witness_EveryStepKeepsInv : small.Inv ∧ step small = .next small.edge := ⟨small_is_Inv, step_eq_edge _⟩

theorem witness_OutputsZeroWhileIdle :
    small.phase = .ready ∧ (small.present ⟨true, false, 0#136⟩).inputs.head? = some ⟨true, false, 0#136⟩ ∧
      step (small.present ⟨true, false, 0#136⟩) = .next (small.present ⟨true, false, 0#136⟩).edge ∧
      small.ZeroWhileIdle ∧ Host.Core.run core 0 small = .next small ∧ small.outputs.outValid = false :=
  ⟨rfl, by decide, step_eq_edge _, by decide, rfl, by decide⟩

/-- Two edges before the reset edge of the schedule. -/
theorem witness_PipelineIsDelayLine :
    small.phase = .ready ∧ ∀ e ∈ small.inputs.take 2, e.rst = false := by decide

theorem witness_ResponseAfterExactlyLatEdges :
    small.phase = .ready ∧
      ({ small with inputs := [⟨false, true, encode (.vdec dec37)⟩, ⟨false, false, 0#136⟩, EdgeInput.idle] } : State).inputs =
        ⟨false, true, encode (.vdec dec37)⟩ :: [⟨false, false, 0#136⟩, EdgeInput.idle] ∧
      ∀ e ∈ [⟨false, false, 0#136⟩, EdgeInput.idle].take small.lat, e.rst = false := by decide

/-- The edge just before, and the edge at, t + LAT. -/
theorem witness_DependentRequestEarliestEdge :
    small.phase = .ready ∧ dependentInTime small.lat 0 1 = false ∧ dependentInTime small.lat 0 2 = true ∧
      ({ small with inputs := [⟨false, true, encode (.vdec dec37)⟩] } : State).inputs =
        ⟨false, true, encode (.vdec dec37)⟩ :: [] ∧
      ∀ e ∈ ([] : List EdgeInput).take small.lat, e.rst = false := by decide

/-- The same strobes with other requests and another response in flight. -/
theorem witness_TimingIndependentOfData :
    small.phase = .ready ∧ small.stages.map Stage.v = [(⟨true, raise .range⟩ : Stage), Stage.empty].map Stage.v ∧
      small.inputs.map (fun e => (e.rst, e.inValid)) =
        [(⟨false, true, 1#136⟩ : EdgeInput), ⟨false, false, 2#136⟩, ⟨true, true, 3#136⟩].map fun e => (e.rst, e.inValid) := by
  decide

theorem witness_PastForgottenAfterLatEdges :
    small.phase = .ready ∧ small.lat = ({ State.resetWith 2 with inputs := small.inputs } : State).lat ∧
      small.inputs = ({ State.resetWith 2 with inputs := small.inputs } : State).inputs := by decide

end Sys2Proof.Tests
end

section
/-!
PROOFS. The canonical encoding of a value is unique (00_scope.md R14). What VDEC accepts is a tag above a value in the
top 8L bits of the lanes; VENC puts the same two fields in the same place as soon as the decoded tier is `MinLen` of the
value, which is what VCANON's verdict says.
-/

namespace Sys2Proof.Machine

/-- From the first reset edge on, `S[1]` holds the operation's response after its edge. -/
theorem exec_s1 {i : Instr} {s t : State} (hs : s.phase = .ready) (h : exec i s = .next t) :
    t.s1 = ⟨true, execRsp (encode i)⟩ := by
  rw [exec_next h, respond_s1 hs]

/-- Lane vectors that agree on the top `8n` bits agree on the first `n` lanes: the converse of `top_eq_of_lanes`. -/
theorem lanes_eq_of_top {b b' : LaneVec} {n : Nat} (hn : n ≤ 8)
    (h : b.toNat / 2 ^ (64 - 8 * n) = b'.toNat / 2 ^ (64 - 8 * n)) (k : Fin 8) (hk : k.val < n) :
    lane b k = lane b' k := by
  have hsplit : 2 ^ (56 - 8 * k.val) = 2 ^ (64 - 8 * n) * 2 ^ (8 * (n - 1 - k.val)) := by
    rw [← pow_add]
    congr 1
    omega
  apply BitVec.eq_of_toNat_eq
  rw [toNat_lane, toNat_lane, hsplit, ← Nat.div_div_eq_div_mul, ← Nat.div_div_eq_div_mul, h]

/-- VDEC answers OK exactly when the tier its tag selects is available (41_varint.md R110). -/
theorem vdecRsp_err_ok_iff (o : Operands) : (vdecRsp o).err = .ok ↔ (tagLen (varintTag o)).len ≤ sat8 o.len := by
  refine ⟨fun h => ?_, fun h => by rw [vdecRsp_ok h]⟩
  by_contra hshort
  rw [vdecRsp_short (Nat.lt_of_not_le hshort)] at h
  exact Err.noConfusion h

/-- VCANON's verdict is 1 exactly when the value is in the domain and the length is `MinLen` of it (41_varint.md
R112). -/
theorem vcanonRsp_canon_iff (o : Operands) :
    (vcanonRsp o).canon = true ↔ o.val.toNat < 2 ^ 62 ∧ o.len = (minLen o.val).lenField := by
  by_cases hv : o.val.toNat < 2 ^ 62
  · rw [vcanonRsp_in hv, beq_iff_eq, and_iff_right hv]
  · rw [vcanonRsp_out (Nat.le_of_not_lt hv)]
    exact iff_of_false Bool.false_ne_true fun ⟨hlt, _⟩ => hv hlt

/-- With the full capacity of 8 bytes, VENC fails only outside the domain (41_varint.md R105). -/
theorem vencRsp_ok_of_len_eight {o : Operands} (hlen : o.len = 8#4) (hv : o.val.toNat < 2 ^ 62) :
    vencRsp o = ⟨.ok, false, (minLen o.val).lenField, 0#64,
      placeHigh (2 + (minLen o.val).usableBits) (varintEncoding (minLen o.val) o.val)⟩ :=
  vencRsp_ok hv (by rw [hlen]; exact Tier.len_le _)

/-- The top 8L bits of VDEC's lanes are the tag above the decoded value (30_encoding.md R73, R74). -/
theorem varint_top_eq (o : Operands) :
    o.bytes.toNat / 2 ^ (64 - 8 * (tagLen (varintTag o)).len) =
      (varintTag o).toNat * 2 ^ (tagLen (varintTag o)).usableBits +
        (varintValue (tagLen (varintTag o)) (varintField (tagLen (varintTag o)) o)).toNat := by
  rw [toNat_varintValue, toNat_varintTag]
  cases tagLen (varintTag o) <;> simp only [Tier.usableBits, Tier.len] <;> omega

/-- The top 8L bits of VENC's lanes are the tag above the encoded value (30_encoding.md R74). -/
theorem venc_top_eq {v : Word} (hv : v.toNat < 2 ^ 62) :
    (placeHigh (2 + (minLen v).usableBits) (varintEncoding (minLen v) v)).toNat / 2 ^ (64 - 8 * (minLen v).len) =
      (lenTag (minLen v)).toNat * 2 ^ (minLen v).usableBits + v.toNat := by
  rw [toNat_venc_bytes hv, Nat.mul_div_cancel _ (Nat.two_pow_pos _)]

/-- Encoding the value of a varint whose tier is the value's `MinLen` gives the varint's lanes back. -/
theorem lane_venc_varintValue {o : Operands} {v : Word} (hv : v.toNat < 2 ^ 62)
    (hval : v = varintValue (tagLen (varintTag o)) (varintField (tagLen (varintTag o)) o))
    (hmin : minLen v = tagLen (varintTag o)) (k : Fin 8) (hk : k.val < (minLen v).len) :
    lane (placeHigh (2 + (minLen v).usableBits) (varintEncoding (minLen v) v)) k = lane o.bytes k := by
  refine lanes_eq_of_top (Tier.len_le _) ?_ k hk
  calc _ = (lenTag (minLen v)).toNat * 2 ^ (minLen v).usableBits + v.toNat := venc_top_eq hv
    _ = (varintTag o).toNat * 2 ^ (tagLen (varintTag o)).usableBits +
          (varintValue (tagLen (varintTag o)) (varintField (tagLen (varintTag o)) o)).toNat := by
        rw [hmin, lenTag_tagLen, hval]
    _ = o.bytes.toNat / 2 ^ (64 - 8 * (minLen v).len) := by rw [hmin, varint_top_eq]

end Sys2Proof.Machine

open Sys2Proof Sys2Proof.Machine

/-- Settles O34: VCANON's verdict makes the decoded tier `MinLen` of the value, and then VENC writes the tag and the
value where VDEC read them. -/
theorem canonicalEncodingIsUnique : Obligations.CanonicalEncodingIsUnique := by
  unfold Obligations.CanonicalEncodingIsUnique
  intro o o' o'' s s' s'' t t' t'' hs hs' hs'' hdec hok hlen' hval' hcanon hc hlen'' hval'' henc
  rw [exec_s1 hs hdec, execRsp_vdec] at hok hlen' hval' hval'' ⊢
  rw [exec_s1 hs' hcanon, execRsp_vcanon, vcanonRsp_canon_iff, hlen', hval', ← hval''] at hc
  rw [vdecRsp_ok ((vdecRsp_err_ok_iff o).mp hok)] at hc hval'' ⊢
  obtain ⟨hv, hmin⟩ := hc
  have htier : minLen o''.val = tagLen (varintTag o) := (Tier.lenField_inj.mp hmin).symm
  rw [exec_s1 hs'' henc, execRsp_venc, vencRsp_ok_of_len_eight hlen'' hv]
  refine ⟨rfl, hmin.symm, fun k hk => lane_venc_varintValue hv hval'' htier k ?_⟩
  rwa [htier, ← Tier.toNat_lenField]
end

section
/-!
PROOFS. Every response of `Exec`, and so everything an edge loads, meets the conditions of `Rsp.Legal`.
-/

namespace Sys2Proof.Machine

/-- An error response is legal (60_exceptions.md R131). -/
theorem raise_legal (e : Err) : (raise e).Legal :=
  ⟨fun _ => rfl, by simp, by simp, by simp, .inl rfl, by simp, fun _ => rfl⟩

/-- What makes a response without error legal (20_memory.md R42, 30_encoding.md R71). -/
theorem legal_of_ok {canon : Bool} {len : LenField} {val : Word} {bytes : LaneVec}
    (hlen : len.toNat ∈ [1, 2, 4, 8]) (hlanes : ∀ k : Fin 8, len.toNat ≤ k.val → lane bytes k = 0#8)
    (hval : val.toNat < 2 ^ (8 * len.toNat)) (hone : val = 0#64 ∨ bytes = 0#64)
    (hcanon : canon = true → val = 0#64 ∧ bytes = 0#64) : Rsp.Legal ⟨.ok, canon, len, val, bytes⟩ := by
  have hne : len ≠ 0#4 := by
    rintro rfl
    simp at hlen
  exact ⟨fun h => absurd rfl h, List.mem_cons_of_mem _ hlen, hlanes, hval, hone, fun hc => ⟨rfl, hne, hcanon hc⟩,
    fun h => absurd h hne⟩

/-- Lanes that hold an `n`-byte field at the top and zeros below it are zero from lane `n` on. -/
theorem lane_eq_zero_of_dvd {b : LaneVec} {n : Nat} (h : 2 ^ (64 - 8 * n) ∣ b.toNat) (k : Fin 8) (hk : n ≤ k.val) :
    lane b k = 0#8 := by
  have hsplit : 2 ^ (64 - 8 * n) = 2 ^ (56 - 8 * k.val) * (256 * 2 ^ (8 * (k.val - n))) := by
    rw [show 256 = 2 ^ 8 by rfl, ← pow_add, ← pow_add]
    congr 1
    omega
  obtain ⟨q, hq⟩ := h
  apply BitVec.eq_of_toNat_eq
  rw [toNat_lane, hq, hsplit, mul_assoc, Nat.mul_div_cancel_left _ (Nat.two_pow_pos _), mul_assoc, Nat.mul_mod_right]
  rfl

theorem Width.toNat_lenField_mem (w : Width) : w.lenField.toNat ∈ [1, 2, 4, 8] := by cases w <;> decide

theorem Width.eight_mul_toNat_lenField (w : Width) : 8 * w.lenField.toNat = w.bits := by cases w <;> decide

theorem Tier.len_mem (t : Tier) : t.len ∈ [1, 2, 4, 8] := by cases t <;> decide

theorem fenc_legal (w : Width) (o : Operands) : (fenc w o).Legal :=
  legal_of_ok w.toNat_lenField_mem
    (lane_eq_zero_of_dvd (by rw [w.eight_mul_toNat_lenField]; exact Dvd.intro_left _ (toNat_fenc_bytes w o).symm))
    (Nat.two_pow_pos _) (.inl rfl) nofun

theorem fdec_legal (w : Width) (o : Operands) : (fdec w o).Legal := by
  refine legal_of_ok w.toNat_lenField_mem (fun k _ => lane_zero k) ?_ (.inr rfl) nofun
  have hle : (fixedField w o).toNat % 2 ^ 64 ≤ (fixedField w o).toNat := Nat.mod_le _ _
  rw [BitVec.toNat_setWidth, w.eight_mul_toNat_lenField]
  exact hle.trans_lt (fixedField w o).isLt

/-- VENC's response is an error, or the tag and the value in the top 8L bits of the lanes (41_varint.md R105). -/
theorem vencRsp_legal (o : Operands) : (vencRsp o).Legal := by
  by_cases hv : o.val.toNat < 2 ^ 62
  case neg => rw [vencRsp_range (Nat.le_of_not_lt hv)]; exact raise_legal _
  by_cases hcap : (minLen o.val).len ≤ sat8 o.len
  case neg => rw [vencRsp_short hv (Nat.lt_of_not_le hcap)]; exact raise_legal _
  rw [vencRsp_ok hv hcap]
  refine legal_of_ok ?_ (lane_eq_zero_of_dvd ?_) (Nat.two_pow_pos _) (.inl rfl) nofun
  · rw [Tier.toNat_lenField]
    exact Tier.len_mem _
  · rw [Tier.toNat_lenField, toNat_venc_bytes hv]
    exact Dvd.intro_left _ rfl

/-- VDEC's response is an error, or a value of at most 8L - 2 bits (41_varint.md R110). -/
theorem vdecRsp_legal (o : Operands) : (vdecRsp o).Legal := by
  by_cases havail : (tagLen (varintTag o)).len ≤ sat8 o.len
  case neg => rw [vdecRsp_short (Nat.lt_of_not_le havail)]; exact raise_legal _
  rw [vdecRsp_ok havail]
  refine legal_of_ok ?_ (fun k _ => lane_zero k) ?_ (.inr rfl) nofun
  · rw [Tier.toNat_lenField]
    exact Tier.len_mem _
  · rw [Tier.toNat_lenField, toNat_varintValue]
    calc _ < 2 ^ (tagLen (varintTag o)).usableBits := Nat.mod_lt _ (Nat.two_pow_pos _)
      _ ≤ 2 ^ (8 * (tagLen (varintTag o)).len) := Nat.pow_le_pow_right (by omega) (Nat.sub_le _ _)

/-- VCANON's response is `ZERO`, or a length and a verdict (41_varint.md R112). -/
theorem vcanonRsp_legal (o : Operands) : (vcanonRsp o).Legal := by
  by_cases hv : o.val.toNat < 2 ^ 62
  case neg => rw [vcanonRsp_out (Nat.le_of_not_lt hv)]; exact raise_legal .ok
  rw [vcanonRsp_in hv]
  refine legal_of_ok ?_ (fun k _ => lane_zero k) (Nat.two_pow_pos _) (.inl rfl) fun _ => ⟨rfl, rfl⟩
  rw [Tier.toNat_lenField]
  exact Tier.len_mem _

theorem execRsp_encode_legal (i : Instr) : (execRsp (encode i)).Legal := by
  cases i with
  | fenc16 o => rw [execRsp_fenc16]; exact fenc_legal _ o
  | fenc32 o => rw [execRsp_fenc32]; exact fenc_legal _ o
  | fenc64 o => rw [execRsp_fenc64]; exact fenc_legal _ o
  | fdec16 o => rw [execRsp_fdec16]; exact fdec_legal _ o
  | fdec32 o => rw [execRsp_fdec32]; exact fdec_legal _ o
  | fdec64 o => rw [execRsp_fdec64]; exact fdec_legal _ o
  | venc o => rw [execRsp_venc]; exact vencRsp_legal o
  | vdec o => rw [execRsp_vdec]; exact vdecRsp_legal o
  | vcanon o => rw [execRsp_vcanon]; exact vcanonRsp_legal o

/-- `Exec` answers every bundle with a legal response: the bundle is an operation's, or its selector is reserved. -/
theorem execRsp_legal (req : ReqBundle) : (execRsp req).Legal := by
  rcases decode_cases req with ⟨i, -, hi⟩ | ⟨-, hr⟩
  · rw [← encode_of_instrOfOp hi]
    exact execRsp_encode_legal i
  · rw [execRsp_reserved hr]
    exact raise_legal _

theorem load_of_inValid {e : EdgeInput} (h : e.inValid = true) : e.load = ⟨true, execRsp e.req⟩ := if_pos h

theorem load_of_not_inValid {e : EdgeInput} (h : e.inValid = false) : e.load = Stage.empty := by
  simp [EdgeInput.load, h]

/-- What an edge loads is a valid response of `Exec` or the empty stage (10_state.md R24). -/
theorem load_cases (e : EdgeInput) : e.load = ⟨true, execRsp e.req⟩ ∨ e.load = Stage.empty := by
  cases h : e.inValid with
  | true => exact .inl (load_of_inValid h)
  | false => exact .inr (load_of_not_inValid h)

theorem empty_zeroIfIdle : Stage.empty.ZeroIfIdle := fun _ => rfl

theorem load_zeroIfIdle (e : EdgeInput) : e.load.ZeroIfIdle := by
  rcases load_cases e with h | h <;> rw [h]
  · exact nofun
  · exact empty_zeroIfIdle

theorem empty_legal : Stage.empty.r.Legal := raise_legal .ok

theorem load_legal (e : EdgeInput) : e.load.r.Legal := by
  rcases load_cases e with h | h <;> rw [h]
  · exact execRsp_legal e.req
  · exact empty_legal

end Sys2Proof.Machine
end

section
/-!
PROOFS. The stages along a run from the first reset edge on: what every edge keeps of them, the delay line, and how far
two runs under one schedule agree.
-/

namespace Sys2Proof.Machine

/-! ## What every stage keeps -/

/-- The stages after an edge without reset (10_state.md R24). -/
theorem edge_stages_load {s : State} (hs : s.phase = .ready) (hr : s.sampled.rst = false) :
    s.edge.stages = (s.sampled.load :: s.stages).take s.lat := by
  rw [edge_stages hs, hr, if_neg Bool.false_ne_true]

/-- What the empty stage, the sample's load and every stage have, every stage has after the edge. -/
theorem forall_edge_stages {P : Stage → Prop} {s : State} (hempty : P Stage.empty)
    (hload : s.sampled.rst = false → P s.sampled.load) (hs : s.phase = .ready) (h : ∀ st ∈ s.stages, P st) :
    ∀ st ∈ s.edge.stages, P st := by
  intro st hst
  rw [edge_stages hs] at hst
  split at hst
  · rw [List.eq_of_mem_replicate hst]
    exact hempty
  · rcases List.mem_cons.mp (List.mem_of_mem_take hst) with rfl | hold
    · exact hload (eq_false_of_ne_true ‹_›)
    · exact h st hold

/-- The invariant that every edge keeps (10_state.md R24, R29). -/
theorem edge_inv {s : State} (h : s.Inv) : s.edge.Inv := by
  obtain ⟨hs, hstages⟩ := h
  exact ⟨edge_ready hs, forall_edge_stages ⟨empty_zeroIfIdle, empty_legal⟩
    (fun _ => ⟨load_zeroIfIdle _, load_legal _⟩) hs hstages⟩

/-- A pipeline of empty stages meets the invariant. -/
theorem inv_of_stages_empty {s : State} {n : Nat} (hs : s.phase = .ready)
    (h : s.stages = List.replicate n Stage.empty) : s.Inv := by
  refine ⟨hs, fun st hst => ?_⟩
  rw [h] at hst
  rw [List.eq_of_mem_replicate hst]
  exact ⟨empty_zeroIfIdle, empty_legal⟩

theorem edge_inv_of_rst {s : State} (hr : s.sampled.rst = true) : s.edge.Inv :=
  inv_of_stages_empty (by rw [edge_phase, if_pos hr]) (edge_stages_rst hr)

theorem iterate_edge_inv (k : Nat) {s : State} (h : s.Inv) : (State.edge^[k] s).Inv :=
  iterate_edge_induction (P := State.Inv) (fun _ => edge_inv) k h

theorem edge_zeroWhileIdle {s : State} (hs : s.phase = .ready) (h : s.ZeroWhileIdle) : s.edge.ZeroWhileIdle :=
  forall_edge_stages empty_zeroIfIdle (fun _ => load_zeroIfIdle _) hs h

theorem iterate_edge_zeroWhileIdle (k : Nat) {s : State} (hs : s.phase = .ready) (h : s.ZeroWhileIdle) :
    (State.edge^[k] s).ZeroWhileIdle := by
  induction k with
  | zero => exact h
  | succ k ih =>
    rw [Function.iterate_succ_apply']
    exact edge_zeroWhileIdle (iterate_edge_ready k hs) ih

/-! ## The outputs -/

/-- With `S[LAT]` empty every output is zero (10_state.md R25). -/
theorem outputs_of_last_empty {s : State} (h : s.last = Stage.empty) :
    s.outputs = ⟨false, 0b00#2, false, 0#4, 0#64, 0#64⟩ := by
  rw [State.outputs, h]
  rfl

/-- A stage that is `ZERO` when idle, and idle, is empty (10_state.md R29). -/
theorem eq_empty_of_idle {st : Stage} (h : st.ZeroIfIdle) (hv : st.v = false) : st = Stage.empty := by
  cases st
  simp_all [Stage.ZeroIfIdle, Stage.empty]

/-! ## The reset state of a latency -/

theorem resetWith_stages {lat : Nat} (h : 1 ≤ lat) : (State.resetWith lat).stages = List.replicate lat Stage.empty := by
  rw [State.stages, State.resetWith, ← List.replicate_succ, Nat.sub_add_cancel h]

theorem resetWith_lat {lat : Nat} (h : 1 ≤ lat) : (State.resetWith lat).lat = lat := by
  rw [← stages_length, resetWith_stages h, List.length_replicate]

theorem resetWith_inv {lat : Nat} (h : 1 ≤ lat) : (State.resetWith lat).Inv :=
  inv_of_stages_empty rfl (resetWith_stages h)

/-! ## The delay line -/

/-- The sample of the edge after `k` edges: a schedule that has run out samples as idle (log 1). -/
theorem sampled_iterate_edge (k : Nat) (s : State) : (State.edge^[k] s).sampled = s.inputs.getD k EdgeInput.idle := by
  simp [State.sampled, List.head?_drop]

/-- What the samples of a schedule's prefix and the idle sample have, the sample of each of those edges has. -/
theorem getD_idle_of_take {P : EdgeInput → Prop} (hidle : P EdgeInput.idle) {l : List EdgeInput} {n k : Nat}
    (h : ∀ e ∈ l.take n, P e) (hk : k < n) : P (l.getD k EdgeInput.idle) := by
  by_cases hl : k < l.length
  · rw [List.getD_eq_getElem _ _ hl]
    exact h _ (List.mem_take_iff_getElem.mpr ⟨k, by omega, rfl⟩)
  · rwa [List.getD_eq_default _ _ (Nat.le_of_not_lt hl)]

/-- Dropping entries from `n` on before or after one more entry comes in is the same. -/
theorem take_cons_take {α : Type} (a : α) (l : List α) (n : Nat) : (a :: l.take n).take n = (a :: l).take n := by
  cases n <;> simp [List.take_take]

/-- The stages after `k` edges without reset: the loads of the `k` samples, newest first, then the old stages, cut to
LAT (10_state.md R24). -/
theorem iterate_edge_stages {s : State} (hs : s.phase = .ready) (k : Nat) (hr : ∀ e ∈ s.inputs.take k, e.rst = false) :
    (State.edge^[k] s).stages =
      (((List.range k).map fun j => (s.inputs.getD j EdgeInput.idle).load).reverse ++ s.stages).take s.lat := by
  induction k with
  | zero => simp [← stages_length]
  | succ k ih =>
    have hnow : (State.edge^[k] s).sampled.rst = false := by
      rw [sampled_iterate_edge]
      exact getD_idle_of_take (P := fun e => e.rst = false) rfl hr (Nat.lt_succ_self k)
    rw [Function.iterate_succ_apply', edge_stages_load (iterate_edge_ready k hs) hnow, sampled_iterate_edge,
      iterate_edge_lat, ih fun e he => hr e ((List.take_prefix_take_left (Nat.le_succ k)).subset he), take_cons_take]
    simp [List.range_succ]

/-! ## Two runs under one schedule -/

/-- Two states under one schedule that agree on their first `k` stages agree on the first `k + 1` after an edge, for the
new first stage depends on the sample alone. -/
theorem edge_stages_take_congr {s s' : State} (hs : s.phase = .ready) (hs' : s'.phase = .ready) (hlat : s.lat = s'.lat)
    (hin : s.inputs = s'.inputs) {k : Nat} (h : s.stages.take k = s'.stages.take k) :
    s.edge.stages.take (k + 1) = s'.edge.stages.take (k + 1) := by
  have hsampled : s.sampled = s'.sampled := by rw [State.sampled, State.sampled, hin]
  rw [edge_stages hs, edge_stages hs', hsampled, hlat]
  split
  · rfl
  · rw [List.take_take, List.take_take, Nat.min_comm, ← List.take_take, ← List.take_take, List.take_succ_cons,
      List.take_succ_cons, h]

theorem iterate_edge_stages_take_congr {s s' : State} (hs : s.phase = .ready) (hs' : s'.phase = .ready)
    (hlat : s.lat = s'.lat) (hin : s.inputs = s'.inputs) (k : Nat) :
    (State.edge^[k] s).stages.take k = (State.edge^[k] s').stages.take k := by
  induction k with
  | zero => rfl
  | succ k ih =>
    rw [Function.iterate_succ_apply', Function.iterate_succ_apply']
    exact edge_stages_take_congr (iterate_edge_ready k hs) (iterate_edge_ready k hs')
      (by rw [iterate_edge_lat, iterate_edge_lat, hlat]) (by rw [iterate_edge_inputs, iterate_edge_inputs, hin]) ih

/-- After LAT edges nothing is left of what the stages held (10_state.md R24, R27). -/
theorem iterate_edge_lat_eq {s s' : State} (hs : s.phase = .ready) (hs' : s'.phase = .ready) (hlat : s.lat = s'.lat)
    (hin : s.inputs = s'.inputs) : State.edge^[s.lat] s = State.edge^[s.lat] s' := by
  refine state_ext_stages ?_ (by rw [iterate_edge_inputs, iterate_edge_inputs, hin])
    (by rw [iterate_edge_ready _ hs, iterate_edge_ready _ hs'])
  have h := iterate_edge_stages_take_congr hs hs' hlat hin s.lat
  rwa [List.take_of_length_le (by rw [stages_length, iterate_edge_lat]),
    List.take_of_length_le (by rw [stages_length, iterate_edge_lat, hlat])] at h

/-- LAT edges give the invariant whatever the stages held: the run has met the one from the reset state. -/
theorem iterate_edge_lat_inv {s : State} (hs : s.phase = .ready) : (State.edge^[s.lat] s).Inv := by
  have hinv : ({ State.resetWith s.lat with inputs := s.inputs } : State).Inv := resetWith_inv (lat_pos s)
  have hlat : s.lat = ({ State.resetWith s.lat with inputs := s.inputs } : State).lat :=
    (resetWith_lat (lat_pos s)).symm
  rw [iterate_edge_lat_eq hs rfl hlat rfl]
  exact iterate_edge_inv _ hinv

end Sys2Proof.Machine
end

section
/-!
PROOFS. The time from power-up to the first reset edge, in which every stage is the free value of log 4, and the empty
stages after it (10_state.md R28, 70_reset_and_hazards.md R162).
-/

namespace Sys2Proof.Machine

/-- No reset edge has come, and every stage is the free value for the samples since power-up `p`. -/
def State.Unspecified (s : State) (p : Nat) (samples : List EdgeInput) : Prop :=
  s.phase = .unreset p samples ∧ s.stages = (List.range s.lat).map fun k => unspecifiedStage p samples (k + 1)

theorem unspecifiedOrInv_iff (s : State) : s.UnspecifiedOrInv ↔ (∃ p samples, s.Unspecified p samples) ∨ s.Inv :=
  Iff.rfl

theorem powerUp_unspecified {lat : Nat} (h : 1 ≤ lat) (p : Nat) (inputs : List EdgeInput) :
    (State.powerUp lat p inputs).Unspecified p [] :=
  ⟨powerUp_phase lat p inputs, by rw [powerUp_stages h, powerUp_lat h]⟩

/-- A sample without `rst` joins what the stages depend on, and makes none of them definite. -/
theorem edge_unspecified {s : State} {p : Nat} {samples : List EdgeInput} (hs : s.phase = .unreset p samples)
    (hr : s.sampled.rst = false) : s.edge.Unspecified p (s.sampled :: samples) :=
  ⟨by rw [edge_phase, hr, if_neg Bool.false_ne_true, hs, record_unreset], by rw [edge_stages_unreset hs hr, edge_lat]⟩

/-- The stages stay unspecified as long as the schedule has samples without `rst`. -/
theorem iterate_edge_unspecified {p : Nat} (l : List EdgeInput) (hr : ∀ e ∈ l, e.rst = false) {s : State}
    {samples rest : List EdgeInput} (hin : s.inputs = l ++ rest) (h : s.Unspecified p samples) :
    (State.edge^[l.length] s).Unspecified p (l.reverse ++ samples) := by
  induction l generalizing s samples with
  | nil => exact h
  | cons e l ih =>
    rw [List.forall_mem_cons] at hr
    have he : s.sampled = e := sampled_of_head (by rw [hin]; rfl)
    obtain ⟨hphase, -⟩ := h
    have hedge : s.edge.Unspecified p (e :: samples) := he ▸ edge_unspecified hphase (he ▸ hr.1)
    rw [List.length_cons, Function.iterate_succ_apply, List.reverse_cons, List.append_assoc]
    exact ih hr.2 (by rw [edge_inputs, hin]; rfl) hedge

/-- From power-up the stages stay unspecified over the samples before the first one with `rst` (10_state.md R28). -/
theorem iterate_edge_powerUp_unspecified {lat : Nat} (hlat : 1 ≤ lat) (p : Nat) {before rest : List EdgeInput}
    (hbefore : ∀ e ∈ before, e.rst = false) {k : Nat} (hk : k ≤ before.length) :
    (State.edge^[k] (State.powerUp lat p (before ++ rest))).Unspecified p (before.take k).reverse := by
  have hin : (State.powerUp lat p (before ++ rest)).inputs = before.take k ++ (before.drop k ++ rest) := by
    rw [powerUp_inputs, ← List.append_assoc, List.take_append_drop]
  have h := iterate_edge_unspecified (before.take k) (fun e he => hbefore e (List.mem_of_mem_take he)) hin
    (powerUp_unspecified hlat p _)
  rwa [List.length_take_of_le hk, List.append_nil] at h

/-- The edge with `rst` gives the reset state of the machine's latency, with the rest of the schedule. -/
theorem edge_eq_resetWith {s : State} (hr : s.sampled.rst = true) :
    s.edge = { State.resetWith s.lat with inputs := s.inputs.tail } :=
  state_ext_stages ((edge_stages_rst hr).trans (resetWith_stages (lat_pos s)).symm) (edge_inputs s)
    (by rw [edge_phase, if_pos hr]; rfl)

/-- From power-up, the first edge with `rst` gives the reset state (70_reset_and_hazards.md R162). -/
theorem iterate_edge_powerUp_reset {lat : Nat} (hlat : 1 ≤ lat) (p : Nat) (before rest : List EdgeInput) {e : EdgeInput}
    (hr : e.rst = true) :
    State.edge^[before.length + 1] (State.powerUp lat p (before ++ e :: rest)) =
      { State.resetWith lat with inputs := rest } := by
  have hin : (State.edge^[before.length] (State.powerUp lat p (before ++ e :: rest))).inputs = e :: rest := by
    rw [iterate_edge_inputs, powerUp_inputs, List.drop_left]
  have hnow : (State.edge^[before.length] (State.powerUp lat p (before ++ e :: rest))).sampled = e :=
    sampled_of_head (by rw [hin, List.head?_cons])
  rw [Function.iterate_succ_apply', edge_eq_resetWith (by rw [hnow, hr]), hin, iterate_edge_lat, powerUp_lat hlat,
    List.tail_cons]

/-! ## Empty stages -/

/-- An edge that takes no request leaves empty stages empty (10_state.md R24). -/
theorem edge_stages_empty {s : State} (hs : s.phase = .ready) (h : ∀ st ∈ s.stages, st = Stage.empty)
    (hidle : s.sampled.inValid = false ∨ s.sampled.rst = true) : ∀ st ∈ s.edge.stages, st = Stage.empty :=
  forall_edge_stages rfl (fun hr => load_of_not_inValid (hidle.resolve_right (ne_true_of_eq_false hr))) hs h

/-- Empty stages stay empty over samples that hold no request. -/
theorem iterate_edge_stages_empty (n : Nat) {s : State} (hs : s.phase = .ready)
    (h : ∀ st ∈ s.stages, st = Stage.empty) (hidle : ∀ e ∈ s.inputs.take n, e.inValid = false ∨ e.rst = true) :
    ∀ st ∈ (State.edge^[n] s).stages, st = Stage.empty := by
  induction n with
  | zero => exact h
  | succ n ih =>
    have hnow : (State.edge^[n] s).sampled.inValid = false ∨ (State.edge^[n] s).sampled.rst = true := by
      rw [sampled_iterate_edge]
      exact getD_idle_of_take (P := fun e => e.inValid = false ∨ e.rst = true) (.inl rfl) hidle (Nat.lt_succ_self n)
    rw [Function.iterate_succ_apply']
    exact edge_stages_empty (iterate_edge_ready n hs)
      (ih fun e he => hidle e ((List.take_prefix_take_left (Nat.le_succ n)).subset he)) hnow

/-- An edge moves the empty stages at the end of the pipeline up by at most one. -/
theorem edge_stages_drop_empty {s : State} (hs : s.phase = .ready) {m : Nat}
    (h : ∀ st ∈ s.stages.drop m, st = Stage.empty) : ∀ st ∈ s.edge.stages.drop (m + 1), st = Stage.empty := by
  intro st hst
  rw [edge_stages hs] at hst
  split at hst
  · exact List.eq_of_mem_replicate (List.mem_of_mem_drop hst)
  · rw [List.drop_take, List.drop_succ_cons] at hst
    exact h st (List.mem_of_mem_take hst)

theorem iterate_edge_stages_drop_empty (m : Nat) {s : State} (hs : s.phase = .ready)
    (h : ∀ st ∈ s.stages, st = Stage.empty) : ∀ st ∈ (State.edge^[m] s).stages.drop m, st = Stage.empty := by
  induction m with
  | zero => exact h
  | succ m ih =>
    rw [Function.iterate_succ_apply']
    exact edge_stages_drop_empty (iterate_edge_ready m hs) ih

/-- A pipeline of empty stages has `S[LAT]` empty until a request has had LAT edges to flow through: the samples up to
`LAT - 1` edges ago held none, and what came later has not arrived. -/
theorem last_iterate_edge_eq_empty {s : State} (hs : s.phase = .ready) (h : ∀ st ∈ s.stages, st = Stage.empty) (j : Nat)
    (hidle : ∀ e ∈ s.inputs.take (j + 1 - s.lat), e.inValid = false ∨ e.rst = true) :
    (State.edge^[j] s).last = Stage.empty := by
  have hpos := lat_pos s
  have hsplit : j = min j (s.lat - 1) + (j + 1 - s.lat) := by omega
  have hdrop := iterate_edge_stages_drop_empty (min j (s.lat - 1)) (iterate_edge_ready (j + 1 - s.lat) hs)
    (iterate_edge_stages_empty _ hs h hidle)
  rw [← Function.iterate_add_apply, ← hsplit] at hdrop
  have hlast := last_eq_getElem? (State.edge^[j] s)
  rw [iterate_edge_lat, ← Nat.add_sub_cancel' (Nat.min_le_right j (s.lat - 1)), ← List.getElem?_drop] at hlast
  exact hdrop _ (List.mem_of_getElem? hlast)

/-- From the reset state `S[LAT]` stays empty until a request has had LAT edges to flow through. -/
theorem last_iterate_edge_resetWith {lat : Nat} (hlat : 1 ≤ lat) {rest : List EdgeInput} {j : Nat}
    (hidle : ∀ e ∈ rest.take (j + 1 - lat), e.inValid = false ∨ e.rst = true) :
    (State.edge^[j] { State.resetWith lat with inputs := rest }).last = Stage.empty := by
  have htlat : ({ State.resetWith lat with inputs := rest } : State).lat = lat := resetWith_lat hlat
  have hempty : ∀ st ∈ ({ State.resetWith lat with inputs := rest } : State).stages, st = Stage.empty :=
    fun st hst => List.eq_of_mem_replicate (resetWith_stages hlat ▸ hst)
  exact last_iterate_edge_eq_empty rfl hempty j (by rwa [htlat])

end Sys2Proof.Machine
end

section
/-!
PROOFS. The statements about the state, by tier.
-/

open Sys2Proof Sys2Proof.Machine

/-! ## Tier 3 -/

/-- Settles O45: a step is an edge, and an edge puts only the empty stage or a legal load in front of the old stages. -/
theorem everyStepKeepsInv : Obligations.EveryStepKeepsInv := by
  intro s t hs h
  rw [step_next h]
  exact edge_inv hs

/-- Settles O48, by induction on the number of edges (`iterate_edge_stages`). -/
theorem pipelineIsDelayLine : Obligations.PipelineIsDelayLine := fun s k hs hr =>
  ⟨State.edge^[k] s, run_eq_iterate k s, iterate_edge_inputs k s, iterate_edge_stages hs k hr⟩

/-- Settles O52: after `k` edges the first `k` stages agree (`iterate_edge_stages_take_congr`). -/
theorem pastForgottenAfterLatEdges : Obligations.PastForgottenAfterLatEdges := by
  intro s s' hs hs' hlat hin
  rw [run_eq_iterate, run_eq_iterate, iterate_edge_lat_eq hs hs' hlat hin]

/-- Settles O56: a reset edge gives the invariant, an edge without reset keeps either side. -/
theorem everyStepKeepsUnspecifiedOrInv : Obligations.EveryStepKeepsUnspecifiedOrInv := by
  intro s t hs h
  rw [step_next h, unspecifiedOrInv_iff]
  rcases (unspecifiedOrInv_iff s).mp hs with ⟨p, samples, hphase, -⟩ | hinv
  · cases hr : s.sampled.rst with
    | true => exact .inr (edge_inv_of_rst hr)
    | false => exact .inl ⟨p, _, edge_unspecified hphase hr⟩
  · exact .inr (edge_inv hinv)

/-! ## Tier 2 -/

/-- Settles O11: the stages after an edge are all empty, or the load in front of the old ones (`edge_stages`). -/
theorem stateUpdatePerStage : Obligations.StateUpdatePerStage := by
  intro s e he
  obtain rfl := sampled_of_head he
  refine ⟨s.edge, step_eq_edge s, edge_lat s, edge_inputs s, fun hr k hk => ?_, fun hr hs => ?_⟩
  · rw [stages_length] at hk
    rw [edge_stages_rst hr, List.getElem?_replicate_of_lt hk]
    rfl
  · rw [edge_stages_load hs hr]
    refine ⟨fun hv => ?_, fun hv => ?_, fun k hk => ?_⟩
    · rw [List.getElem?_take_of_lt (lat_pos s), load_of_inValid hv, List.getElem?_cons_zero]
    · rw [List.getElem?_take_of_lt (lat_pos s), load_of_not_inValid hv, List.getElem?_cons_zero]
      rfl
    · rw [stages_length] at hk
      rw [List.getElem?_take_of_lt hk, List.getElem?_cons_succ]

/-- Settles O13: unspecified over the samples before the reset edge, the reset state at that edge, and `S[LAT]` empty
until a request has had LAT edges. -/
theorem oneResetEdgeAfterPowerUp : Obligations.OneResetEdgeAfterPowerUp := by
  rintro lat powerUp before rest v req _ hlat rfl hbefore
  have hreset := iterate_edge_powerUp_reset hlat powerUp before rest (e := ⟨true, v, req⟩) rfl
  refine ⟨fun k hk => ⟨_, run_eq_iterate k _, ?_⟩, _, run_eq_iterate _ _, hreset, ?_, ?_, fun j hj => ?_⟩
  · obtain ⟨-, hstages⟩ := iterate_edge_powerUp_unspecified hlat powerUp (rest := ⟨true, v, req⟩ :: rest) hbefore hk
    rw [hstages, iterate_edge_lat, powerUp_lat hlat]
  · rw [hreset]
    exact resetWith_stages hlat
  · rw [hreset]
    exact outputs_of_last_empty (last_iterate_edge_resetWith hlat (j := 0) (by simp [Nat.sub_eq_zero_of_le hlat]))
  · rw [hreset]
    exact ⟨_, run_eq_iterate j _, by rw [outputs_outValid, last_iterate_edge_resetWith hlat hj]; rfl⟩

/-- Settles O39: every operation's edge is one shift of a valid response (`exec_next`). -/
theorem execFrame : Obligations.ExecFrame := by
  intro i s t hs h
  obtain rfl := exec_next h
  have hlat : (s.respond (execRsp (encode i))).lat = s.lat := shiftIn_lat s _
  have hstages : (s.respond (execRsp (encode i))).stages = (⟨true, execRsp (encode i)⟩ :: s.stages).take s.lat :=
    shiftIn_stages_take hs _
  have hlater : ∀ k, k + 1 < s.lat → (s.respond (execRsp (encode i))).stages[k + 1]? = s.stages[k]? := by
    intro k hk
    rw [hstages, List.getElem?_take_of_lt hk, List.getElem?_cons_succ]
  refine ⟨respond_inputs s _, hlat, respond_phase s _, by rw [respond_s1 hs], hlater, ?_⟩
  have hlast := last_eq_getElem? (s.respond (execRsp (encode i)))
  rw [hlat] at hlast
  rw [outputs_outValid]
  split
  case isTrue h1 =>
    rw [hstages, h1] at hlast
    rw [← Option.some.inj hlast]
  case isFalse h1 =>
    have hpos := lat_pos s
    rw [show s.lat - 1 = s.lat - 2 + 1 by omega, hlater _ (by omega)] at hlast
    rw [hlast]
    rfl

/-- Settles O46: a reset edge empties every stage; LAT edges meet the run from the reset state. -/
theorem invHoldsAfterLatEdges : Obligations.InvHoldsAfterLatEdges := by
  refine ⟨fun s e he hr => ⟨s.edge, step_eq_edge s, edge_inv_of_rst ?_⟩,
    fun s hs => ⟨_, run_eq_iterate s.lat s, iterate_edge_lat_inv hs⟩⟩
  rwa [sampled_of_head he]

/-- Settles O47: a reset edge empties every stage, every edge keeps idle stages `ZERO`, and `S[LAT]` is one of them. -/
theorem outputsZeroWhileIdle : Obligations.OutputsZeroWhileIdle := by
  refine ⟨fun s t e he hr h => ?_, fun s t k hs hz h => ?_⟩
  · rw [step_next h]
    have hinv : s.edge.Inv := edge_inv_of_rst (by rwa [sampled_of_head he])
    exact fun st hst => (hinv.2 st hst).1
  · rw [run_next h]
    have hidle := iterate_edge_zeroWhileIdle k hs hz
    exact ⟨hidle, fun hv => outputs_of_last_empty (eq_empty_of_idle (hidle _ (last_mem_stages _)) hv)⟩

/-- Settles O53: before the first reset edge a shift, of an operation or of a step, gives free values. -/
theorem unresetEdgeLeavesStagesUnspecified : Obligations.UnresetEdgeLeavesStagesUnspecified := by
  refine ⟨fun i s p samples hs => ⟨_, exec_eq_respond i s, respond_inputs s _, respond_phase s _, ?_⟩,
    fun s e p samples hs he hr => ?_⟩
  · rw [State.respond, shiftIn_unreset hs, unspecify_stages, stages_length]
  · obtain rfl := sampled_of_head he
    obtain ⟨hphase, hstages⟩ := edge_unspecified hs hr
    exact ⟨s.edge, step_eq_edge s, edge_inputs s, hphase, by rw [hstages, edge_lat, stages_length]⟩

/-! ## Tier 1 -/

/-- Settles O8: with the request on the pins, `step` takes the branch of the decoded operation. -/
theorem stepRunsDecodedInstruction : Obligations.StepRunsDecodedInstruction := by
  intro s req i hin hdec
  have hsampled := sampled_of_head hin
  simp only [step, hsampled, hdec, Bool.false_eq_true, if_false, if_true, State.afterSample]

/-- Settles O15: `S[LAT]` is the last entry of the stage list, in which the schedule has no part. -/
theorem outputsAreLastStage : Obligations.OutputsAreLastStage := by
  intro s st hst
  rw [last_eq_getElem?] at hst
  obtain rfl := Option.some.inj hst
  exact ⟨rfl, fun _ => rfl⟩

/-- Settles O44: after reset every stage is empty, and the default latency is 1. -/
theorem invHoldsAtReset : Obligations.InvHoldsAtReset := ⟨resetWith_inv le_rfl, fun _ h => resetWith_inv h⟩

/-- Settles O54: the phase after an edge is ready by the sample's `rst`, or else as it was (`edge_phase`). -/
theorem readyExactlyFromFirstResetEdge : Obligations.ReadyExactlyFromFirstResetEdge := by
  intro s t e he h
  rw [step_next h, edge_phase, sampled_of_head he]
  cases e.rst with
  | true => simp
  | false => cases hp : s.phase <;> simp

/-- Settles O55: at power-up no sample has been taken yet, and every stage is the free value for none. -/
theorem unspecifiedOrInvHoldsAtPowerUp : Obligations.UnspecifiedOrInvHoldsAtPowerUp := fun _ p inputs h =>
  (unspecifiedOrInv_iff _).mpr (.inl ⟨p, [], powerUp_unspecified h p inputs⟩)
end

section
/-!
PROOFS. The caller's buffer (20_memory.md R41, R42): what a store leaves in it, what the window of it shows, and VENC and
VDEC through it.
-/

namespace Sys2Proof.Machine

/-! ## Storing a response -/

theorem storedBytes_getElem? {r : Rsp} (k : Fin 8) (hk : k.val < r.len.toNat) :
    r.storedBytes[k.val]? = some (lane r.bytes k) := by
  rw [Rsp.storedBytes, List.getElem?_take_of_lt hk, laneList_getElem?]

/-- A response of length 0 stores nothing. -/
theorem storeAt_of_len_eq_zero (buf : List Byte) (p : Nat) {r : Rsp} (h : r.len.toNat = 0) : storeAt buf p r = buf := by
  simp [storeAt, Rsp.storedBytes, h]

section
variable {buf : List Byte} {p : Nat} {r : Rsp} (hlen : r.len.toNat ≤ 8) (hfit : p + r.len.toNat ≤ buf.length)
include hlen hfit

theorem storeAt_length : (storeAt buf p r).length = buf.length := by
  rw [storeAt, List.length_append, List.length_append, storedBytes_length hlen, List.length_take, List.length_drop]
  omega

/-- A store keeps every byte outside the `len` bytes at `p`. -/
theorem storeAt_getElem?_outside {j : Nat} (hj : j < p ∨ p + r.len.toNat ≤ j) : (storeAt buf p r)[j]? = buf[j]? := by
  have htake : (buf.take p).length = p := List.length_take_of_le (by omega)
  rcases hj with hj | hj
  · rw [storeAt, List.getElem?_append_left (by omega), List.getElem?_take_of_lt hj]
  · rw [storeAt, List.getElem?_append_right (by omega), htake,
      List.getElem?_append_right (by rw [storedBytes_length hlen]; omega), storedBytes_length hlen, List.getElem?_drop]
    congr 1
    omega

/-- The window at `p` of the buffer shows the stored lanes. -/
theorem lane_inputWindow_storeAt (k : Fin 8) (hk : k.val < r.len.toNat) :
    lane (inputWindow (storeAt buf p r) p) k = lane r.bytes k := by
  have htake : (buf.take p).length = p := List.length_take_of_le (by omega)
  have hdrop : (storeAt buf p r).drop p = r.storedBytes ++ buf.drop (p + r.len.toNat) := List.drop_left' htake
  rw [inputWindow, lane_lanesOfBytes, hdrop, List.getD_eq_getElem?_getD,
    List.getElem?_append_left (by rwa [storedBytes_length hlen]), storedBytes_getElem? k hk, Option.getD_some]

end

/-- The length operand of a caller with `n` bytes left offers `min n 8` of them (30_encoding.md R63). -/
theorem sat8_lenOperand (n : Nat) : sat8 (lenOperand n) = min n 8 := by
  rw [sat8, lenOperand, BitVec.toNat_ofNat]
  omega

/-! ## VENC and VDEC on the lanes -/

/-- In the domain, VENC answers OK exactly when the shortest encoding fits (41_varint.md R105). -/
theorem vencRsp_err_ok_iff {o : Operands} (hv : o.val.toNat < 2 ^ 62) :
    (vencRsp o).err = .ok ↔ (minLen o.val).len ≤ sat8 o.len := by
  refine ⟨fun h => ?_, fun h => by rw [vencRsp_ok hv h]⟩
  by_contra hshort
  rw [vencRsp_short hv (Nat.lt_of_not_le hshort)] at h
  exact Err.noConfusion h

/-- VDEC of lanes whose top 8L bits are the tag above a value gives the value and the length (41_varint.md R110). -/
theorem vdecRsp_of_top {t : Tier} {v : Word} {o : Operands} (hv : v.toNat < 2 ^ t.usableBits)
    (htop : o.bytes.toNat / 2 ^ (64 - 8 * t.len) = (lenTag t).toNat * 2 ^ t.usableBits + v.toNat)
    (havail : t.len ≤ sat8 o.len) : vdecRsp o = ⟨.ok, false, t.lenField, v, 0#64⟩ := by
  have htag : varintTag o = lenTag t := by
    apply BitVec.eq_of_toNat_eq
    rw [toNat_varintTag]
    cases t <;> simp only [Tier.usableBits, Tier.len, lenTag, BitVec.toNat_ofNat] at hv htop ⊢ <;> omega
  have htier : tagLen (varintTag o) = t := by rw [htag, tagLen_lenTag]
  have hval : varintValue t (varintField t o) = v := by
    apply BitVec.eq_of_toNat_eq
    rw [toNat_varintValue, htop, Nat.mul_add_mod', Nat.mod_eq_of_lt hv]
  rw [vdecRsp_ok (htier.symm ▸ havail), htier, hval]

/-- VDEC of lanes that begin with VENC's encoding of a value gives the value and its minimal length. -/
theorem vdecRsp_of_venc_lanes {v : Word} {o : Operands} (hv : v.toNat < 2 ^ 62)
    (hlanes : ∀ k : Fin 8, k.val < (minLen v).len →
      lane o.bytes k = lane (placeHigh (2 + (minLen v).usableBits) (varintEncoding (minLen v) v)) k)
    (havail : (minLen v).len ≤ sat8 o.len) : vdecRsp o = ⟨.ok, false, (minLen v).lenField, v, 0#64⟩ :=
  vdecRsp_of_top (minLen_fits hv) ((top_eq_of_lanes (Tier.len_le _) hlanes).trans (venc_top_eq hv)) havail

end Sys2Proof.Machine

open Sys2Proof Sys2Proof.Machine

/-- Settles O43: VENC's response has length 0 or fits the bytes left, so the store is framed; and the window at `p` then
begins with the encoding, which VDEC reads back (`vdecRsp_of_venc_lanes`). -/
theorem varintThroughCallersBuffer : Obligations.VarintThroughCallersBuffer := by
  unfold Obligations.VarintThroughCallersBuffer
  intro buf p o o' s s' t t' hs hs' hp hv hlen henc
  rw [exec_s1 hs henc, execRsp_venc]
  have hmin8 := (minLen o.val).len_le
  have hsat : sat8 o.len = min (buf.length - p) 8 := by rw [hlen, sat8_lenOperand]
  by_cases hcap : (minLen o.val).len ≤ buf.length - p
  case neg =>
    have hrsp : vencRsp o = raise .bufShort := vencRsp_short hv (by omega)
    have hstore : storeAt buf p (vencRsp o) = buf := storeAt_of_len_eq_zero buf p (by rw [hrsp]; rfl)
    have herr : (vencRsp o).err ≠ .ok := by rw [hrsp]; exact nofun
    exact ⟨iff_of_false herr hcap, congrArg List.length hstore, fun j _ => congrArg (·[j]?) hstore, fun _ => hstore,
      fun h => absurd h herr⟩
  case pos =>
    have hrsp := vencRsp_ok hv (show (minLen o.val).len ≤ sat8 o.len by omega)
    have herr : (vencRsp o).err = .ok := by rw [hrsp]
    have hrlen : (vencRsp o).len.toNat = (minLen o.val).len := by rw [hrsp, Tier.toNat_lenField]
    have hlen8 : (vencRsp o).len.toNat ≤ 8 := by omega
    have hfit : p + (vencRsp o).len.toNat ≤ buf.length := by omega
    refine ⟨iff_of_true herr hcap, storeAt_length hlen8 hfit, fun j => storeAt_getElem?_outside hlen8 hfit,
      fun h => absurd herr h, fun _ hlen' hbytes' hdec => ?_⟩
    have hlanes : ∀ k : Fin 8, k.val < (minLen o.val).len → lane o'.bytes k = lane (vencRsp o).bytes k := by
      intro k hk
      rw [hbytes', lane_inputWindow_storeAt hlen8 hfit k (by rwa [hrlen])]
    rw [hrsp] at hlanes ⊢
    rw [exec_s1 hs' hdec, execRsp_vdec]
    exact vdecRsp_of_venc_lanes hv hlanes (by rw [hlen', ← hlen]; omega)
end

section
/-!
PROOFS. When a response stands at the outputs (20_memory.md R50, 70_reset_and_hazards.md R163, R167).
-/

namespace Sys2Proof.Machine

/-- After LAT edges or more without reset, `S[LAT]` holds what the sample of LAT edges ago loaded. -/
theorem last_iterate_edge {s : State} (hs : s.phase = .ready) {k : Nat} (hk : s.lat ≤ k)
    (hr : ∀ e ∈ s.inputs.take k, e.rst = false) :
    (State.edge^[k] s).last = (s.inputs.getD (k - s.lat) EdgeInput.idle).load := by
  have hpos := lat_pos s
  have hlast := last_eq_getElem? (State.edge^[k] s)
  rw [iterate_edge_lat, iterate_edge_stages hs k hr, List.getElem?_take_of_lt (by omega),
    List.getElem?_append_left (by simp; omega), List.getElem?_reverse (by simp; omega), List.length_map,
    List.length_range, List.getElem?_map, List.getElem?_range (by omega), Option.map_some] at hlast
  rw [← Option.some.inj hlast]
  congr 2
  omega

end Sys2Proof.Machine

open Sys2Proof Sys2Proof.Machine

/-- Settles O49: after LAT edges `S[LAT]` holds the load of the first sample, after one more that of the second
(`last_iterate_edge`). -/
theorem responseAfterExactlyLatEdges : Obligations.ResponseAfterExactlyLatEdges := by
  unfold Obligations.ResponseAfterExactlyLatEdges
  intro s req rest hs hin hr
  have htake : ∀ e ∈ s.inputs.take (s.lat + 1), e.rst = false := by
    rw [hin, List.take_succ_cons, List.forall_mem_cons]
    exact ⟨rfl, hr⟩
  refine ⟨⟨_, run_eq_iterate _ _, ?_⟩, ⟨_, run_eq_iterate _ _, ?_⟩⟩
  · have hlast := last_iterate_edge hs le_rfl fun e he =>
      htake e ((List.take_prefix_take_left (Nat.le_succ s.lat)).subset he)
    rw [Nat.sub_self, hin, List.getD_cons_zero, load_of_inValid rfl] at hlast
    rw [State.outputs, hlast]
  · rw [last_iterate_edge hs (Nat.le_succ _) htake, show s.lat.succ - s.lat = 0 + 1 by omega, hin, List.getD_cons_succ,
      List.head?_eq_getElem?]
    rfl
end

section
/-!
PROOFS. Lanes of the fixed-width operations, the lanes a decode reads, and the statements about them (20_memory.md R41 to
R45, R49).
-/

namespace Sys2Proof.Machine

/-! ## Fixed widths as shifts (40_fixed_width.md R80) -/

theorem fenc_bytes_eq_shiftLeft (w : Width) (o : Operands) : (fenc w o).bytes = o.val <<< (64 - w.bits) := by
  apply BitVec.eq_of_toNat_eq
  rw [toNat_fenc_bytes, BitVec.toNat_shiftLeft, Nat.shiftLeft_eq]
  cases w <;> simp only [Width.bits] <;> omega

theorem fdec_val_eq_ushiftRight (w : Width) (o : Operands) : (fdec w o).val = o.bytes >>> (64 - w.bits) := by
  apply BitVec.eq_of_toNat_eq
  rw [toNat_fdec_val, BitVec.toNat_ushiftRight, Nat.shiftRight_eq_div_pow]

/-- The byte numbers below `W/8` are those whose eight bits lie in the width. -/
theorem Width.byte_le_bits {w : Width} {i : Nat} (hi : 8 * i < w.bits) : 8 * i + 8 ≤ w.bits := by
  cases w <;> simp only [Width.bits] at hi ⊢ <;> omega

/-- Byte `i` of the encoding is `val[W-1-8i : W-8-8i]` (20_memory.md R43). -/
theorem lane_fenc_bytes {w : Width} (o : Operands) {i : Fin 8} (hi : 8 * i.val < w.bits) :
    lane (fenc w o).bytes i = o.val.extractLsb' (w.bits - 8 - 8 * i.val) 8 := by
  have hle := w.bits_le
  have hbyte := Width.byte_le_bits hi
  apply BitVec.eq_of_getLsbD_eq
  intro j hj
  rw [getLsbD_lane _ _ _ hj, fenc_bytes_eq_shiftLeft, BitVec.getLsbD_shiftLeft, BitVec.getLsbD_extractLsb',
    decide_eq_true (show 56 - 8 * i.val + j < 64 by omega),
    decide_eq_false (show ¬ 56 - 8 * i.val + j < 64 - w.bits by omega), decide_eq_true hj,
    show 56 - 8 * i.val + j - (64 - w.bits) = w.bits - 8 - 8 * i.val + j by omega]
  rfl

/-- Bits `W-1-8i : W-8-8i` of the decoded integer are lane `i` (20_memory.md R43). -/
theorem extract_fdec_val {w : Width} (o : Operands) {i : Fin 8} (hi : 8 * i.val < w.bits) :
    (fdec w o).val.extractLsb' (w.bits - 8 - 8 * i.val) 8 = lane o.bytes i := by
  have hle := w.bits_le
  have hbyte := Width.byte_le_bits hi
  apply BitVec.eq_of_getLsbD_eq
  intro j hj
  rw [getLsbD_lane _ _ _ hj, fdec_val_eq_ushiftRight, BitVec.getLsbD_extractLsb', BitVec.getLsbD_ushiftRight,
    decide_eq_true hj, Bool.true_and, show 64 - w.bits + (w.bits - 8 - 8 * i.val + j) = 56 - 8 * i.val + j by omega]

/-- Each row of the statements' table of fixed widths is one width, with its FENC and its FDEC. -/
theorem fixedWidth_row {enc dec : Operands → Instr} {w : Nat}
    (h : (enc, dec, w) ∈
      [(Instr.fenc16, Instr.fdec16, 16), (Instr.fenc32, Instr.fdec32, 32), (Instr.fenc64, Instr.fdec64, 64)]) :
    ∃ W : Width, w = W.bits ∧ (∀ o, execRsp (encode (enc o)) = fenc W o) ∧ ∀ o, execRsp (encode (dec o)) = fdec W o := by
  simp only [List.mem_cons, Prod.mk.injEq, List.not_mem_nil, or_false] at h
  rcases h with ⟨rfl, rfl, rfl⟩ | ⟨rfl, rfl, rfl⟩ | ⟨rfl, rfl, rfl⟩
  · exact ⟨.w16, rfl, execRsp_fenc16, execRsp_fdec16⟩
  · exact ⟨.w32, rfl, execRsp_fenc32, execRsp_fdec32⟩
  · exact ⟨.w64, rfl, execRsp_fenc64, execRsp_fdec64⟩

/-! ## The lanes a decode reads (20_memory.md R41) -/

/-- Agreement on the first `n` lanes is agreement on fewer. -/
theorem lanes_agree_mono {b b' : LaneVec} {m n : Nat} (hmn : m ≤ n) (h : ∀ k : Fin 8, k.val < n → lane b k = lane b' k)
    (k : Fin 8) (hk : k.val < m) : lane b k = lane b' k := h k (lt_of_lt_of_le hk hmn)

/-- FDECW reads lanes `0 … W/8-1` and nothing else. -/
theorem fdec_congr {w : Width} {o o' : Operands} (h : ∀ k : Fin 8, k.val < w.bytes → lane o.bytes k = lane o'.bytes k) :
    fdec w o = fdec w o' := by
  have hbits : 8 * w.bytes = w.bits := by cases w <;> rfl
  have htop := top_eq_of_lanes (by have := w.bits_le; omega) h
  have hval : (fdec w o).val = (fdec w o').val := by
    apply BitVec.eq_of_toNat_eq
    rw [toNat_fdec_val, toNat_fdec_val, ← hbits, htop]
  rw [fdec, fdec, Rsp.mk.injEq]
  exact ⟨rfl, rfl, rfl, hval, rfl⟩

/-- VDEC reads the lanes it has available and nothing else: the tag stands in the first of them, and the lanes of the
tier it selects are read only if they are all available. -/
theorem vdecRsp_congr {o o' : Operands} (hlen : o'.len = o.len)
    (h : ∀ k : Fin 8, k.val < sat8 o.len → lane o.bytes k = lane o'.bytes k) : vdecRsp o = vdecRsp o' := by
  by_cases hzero : sat8 o.len = 0
  case pos => rw [vdecRsp_short (hzero ▸ Tier.one_le_len _), vdecRsp_short (by rw [hlen, hzero]; exact Tier.one_le_len _)]
  have htag : varintTag o' = varintTag o := by
    have htop := top_eq_of_lanes (by omega) (lanes_agree_mono (Nat.one_le_iff_ne_zero.mpr hzero) h)
    apply BitVec.eq_of_toNat_eq
    rw [toNat_varintTag, toNat_varintTag]
    omega
  by_cases havail : (tagLen (varintTag o)).len ≤ sat8 o.len
  case neg =>
    rw [vdecRsp_short (Nat.lt_of_not_le havail), vdecRsp_short (by rw [htag, hlen]; exact Nat.lt_of_not_le havail)]
  have hval : varintValue (tagLen (varintTag o)) (varintField (tagLen (varintTag o)) o) =
      varintValue (tagLen (varintTag o)) (varintField (tagLen (varintTag o)) o') := by
    apply BitVec.eq_of_toNat_eq
    rw [toNat_varintValue, toNat_varintValue, top_eq_of_lanes (Tier.len_le _) (lanes_agree_mono havail h)]
  rw [vdecRsp_ok havail, vdecRsp_ok (by rwa [htag, hlen]), htag, hval]

/-- Operations with one response have one outcome. -/
theorem exec_congr {i i' : Instr} (h : execRsp (encode i) = execRsp (encode i')) (s : State) : exec i s = exec i' s := by
  rw [exec_eq_respond, exec_eq_respond, h]

end Sys2Proof.Machine

open Sys2Proof Sys2Proof.Machine

/-! ## Tier 2 -/

/-- Settles O23, for each width by `lane_fenc_bytes` and `extract_fdec_val`. -/
theorem fixedWidthBytesAreBigEndian : Obligations.FixedWidthBytesAreBigEndian := by
  unfold Obligations.FixedWidthBytesAreBigEndian
  intro enc dec w hrow o s i hs hi
  obtain ⟨W, rfl, henc, hdec⟩ := fixedWidth_row hrow
  refine ⟨⟨_, exec_eq_respond _ s, ?_⟩, ⟨_, exec_eq_respond _ s, ?_⟩⟩
  · rw [respond_s1 hs, henc]
    exact lane_fenc_bytes o hi
  · rw [respond_s1 hs, hdec]
    exact extract_fdec_val o hi

/-- Settles O25: a decode shifts the lane vector right, an encode shifts the value left. -/
theorem mixedWidthsShareLanes : Obligations.MixedWidthsShareLanes := by
  unfold Obligations.MixedWidthsShareLanes
  refine ⟨fun o o' o'' s s' s'' t t' t'' hs hs' hs'' hb' hb'' h h' h'' => ?_, fun o o' s s' t t' hs hs' hv h h' => ?_⟩
  · have h16 : t.s1.r.val = o.bytes >>> 48 := by
      rw [exec_s1 hs h, execRsp_fdec16, fdec_val_eq_ushiftRight]; rfl
    have h32 : t'.s1.r.val = o.bytes >>> 32 := by
      rw [exec_s1 hs' h', execRsp_fdec32, fdec_val_eq_ushiftRight, hb']; rfl
    have h64 : t''.s1.r.val = o.bytes := by
      rw [exec_s1 hs'' h'', execRsp_fdec64, fdec_val_eq_ushiftRight, hb'']; exact BitVec.ushiftRight_zero _
    have hlt := o.bytes.isLt
    rw [h16, h32, h64, BitVec.toNat_ushiftRight, BitVec.toNat_ushiftRight, Nat.shiftRight_eq_div_pow,
      Nat.shiftRight_eq_div_pow, toNat_extract, toNat_extract]
    exact ⟨by omega, by omega, rfl, rfl, rfl⟩
  · have hbytes : t.s1.r.bytes = t'.s1.r.bytes := by
      rw [exec_s1 hs h, exec_s1 hs' h', execRsp_fenc16, execRsp_fenc64, fenc_bytes_eq_shiftLeft, fenc_bytes_eq_shiftLeft,
        hv]
      exact (BitVec.shiftLeft_zero _).symm
    rw [hbytes]
    exact ⟨rfl, rfl⟩

/-- Settles O38: every response is legal (`execRsp_encode_legal`), so its lanes from `len` on are zero, and all of it is
zero on an error. -/
theorem encodeOutputWindow : Obligations.EncodeOutputWindow := by
  unfold Obligations.EncodeOutputWindow
  intro i o s t hs _ h
  obtain ⟨herr, hlen, hlanes, -⟩ := execRsp_encode_legal i
  have hlen8 : (execRsp (encode i)).len.toNat ≤ 8 := by
    simp only [List.mem_cons, List.not_mem_nil, or_false] at hlen
    omega
  rw [exec_s1 hs h]
  refine ⟨fun _ => ⟨storedBytes_length hlen8, storedBytes_getElem?, hlanes⟩, fun hne => ?_⟩
  rw [herr hne]
  exact ⟨rfl, rfl, rfl⟩

/-- Settles O42: FDECW reads `W/8` lanes (`fdec_congr`), VDEC the available ones (`vdecRsp_congr`). -/
theorem lanesPastTheBufferAreIgnored : Obligations.LanesPastTheBufferAreIgnored := by
  unfold Obligations.LanesPastTheBufferAreIgnored
  intro o o' avail s _ hlen _ hlanes
  refine ⟨fun op hop henough => ?_, fun havail => exec_congr ?_ s⟩
  · simp only [List.mem_cons, List.not_mem_nil, or_false] at hop
    have hread : ∀ W : Width, W.bytes ≤ avail → fdec W o = fdec W o' := fun W hle =>
      fdec_congr (lanes_agree_mono hle hlanes)
    apply exec_congr
    rcases hop with rfl | rfl | rfl
    · rw [execRsp_fdec16, execRsp_fdec16, hread .w16 (of_decide_eq_true henough)]
    · rw [execRsp_fdec32, execRsp_fdec32, hread .w32 (of_decide_eq_true henough)]
    · rw [execRsp_fdec64, execRsp_fdec64, hread .w64 (of_decide_eq_true henough)]
  · rw [execRsp_vdec, execRsp_vdec, vdecRsp_congr hlen (by rwa [havail] at hlanes)]

/-! ## Tier 1 -/

/-- Settles O40: `S[1]` is the operation's response (`respond_s1`), and all else after an edge without reset is the old
state's (`edge_of_ready`). -/
theorem responsesIndependentOfHistory : Obligations.ResponsesIndependentOfHistory := by
  unfold Obligations.ResponsesIndependentOfHistory
  refine ⟨fun i s s' hs hs' => ⟨_, _, exec_eq_respond i s, exec_eq_respond i s', ?_⟩,
    fun s e e' hs hr hr' => ⟨_, _, step_eq_edge _, step_eq_edge _, ?_⟩⟩
  · rw [respond_s1 hs, respond_s1 hs']
  · rw [edge_of_ready (s := s.present e) hs hr, edge_of_ready (s := s.present e') hs hr']
    exact ⟨rfl, rfl⟩
end

section
/-!
PROOFS. The decoder and the encoder (30_encoding.md R60, R61, R68, R69): what a bundle decodes to, as an equation on the
bundle, and the statements about the opcode map.
-/

namespace Sys2Proof

/-- The row of the opcode map at an operation's own selector is the operation (R61). -/
@[simp] theorem instrOfOp_opcode (i : Instr) : instrOfOp i.opcode i.operands = some i := by cases i <;> rfl

/-- Decoding undoes encoding. -/
@[simp] theorem decode_encode (i : Instr) : decode (encode i) = .instr i := by
  rw [encode, decode_packReq, instrOfOp_opcode]

/-- A bundle decodes to an operation exactly when it is the operation's bundle. -/
theorem decode_eq_instr_iff {req : ReqBundle} {i : Instr} : decode req = .instr i ↔ encode i = req := by
  refine ⟨fun h => ?_, fun h => by rw [← h, decode_encode]⟩
  rcases decode_cases req with ⟨j, hj, hrow⟩ | ⟨hres, -⟩
  · obtain rfl := Decoded.instr.inj (hj.symm.trans h)
    exact Machine.encode_of_instrOfOp hrow
  · exact Decoded.noConfusion (hres.symm.trans h)

/-- A bundle is rejected exactly when its selector is a reserved one, and by that name (R68). -/
theorem decode_eq_reservedOp_iff {req : ReqBundle} {op : OpField} :
    decode req = .reservedOp op ↔ reqOp req = op ∧ op ∈ reservedOps := by
  constructor
  · intro h
    rcases decode_cases req with ⟨i, hi, -⟩ | ⟨hres, hmem⟩
    · exact Decoded.noConfusion (hi.symm.trans h)
    · obtain rfl := Decoded.reservedOp.inj (hres.symm.trans h)
      exact ⟨rfl, hmem⟩
  · rintro ⟨rfl, hmem⟩
    rw [decode, instrOfOp_eq_none.mpr hmem]

/-- Bit `132 + j` of a bundle is bit `j` of its selector (R60). -/
theorem getLsbD_reqOp (req : ReqBundle) {j : Nat} (hj : j < 4) : req.getLsbD (132 + j) = (reqOp req).getLsbD j := by
  rw [reqOp, BitVec.getLsbD_extractLsb', decide_eq_true hj, Bool.true_and]

@[simp] theorem reqOp_encode (i : Instr) : reqOp (encode i) = i.opcode := reqOp_packReq _ _

/-- The fixed-width operations are those with `op[3] = 0` (R61). -/
theorem opcode_bit3_eq_false_iff (i : Instr) :
    i.opcode.getLsbD 3 = false ↔
      ∃ o, i = .fenc16 o ∨ i = .fenc32 o ∨ i = .fenc64 o ∨ i = .fdec16 o ∨ i = .fdec32 o ∨ i = .fdec64 o := by
  cases i <;> simp [Instr.opcode]

/-- The fixed-width encodes are those with `op[3] = op[2] = 0` (R61). -/
theorem opcode_bits32_eq_false_iff (i : Instr) :
    (i.opcode.getLsbD 3 = false ∧ i.opcode.getLsbD 2 = false) ↔ ∃ o, i = .fenc16 o ∨ i = .fenc32 o ∨ i = .fenc64 o := by
  cases i <;> simp [Instr.opcode]

/-- `W(op) = 8 · 2^(op[1:0])` where `op[1:0] ≠ 00` (R61). -/
theorem bits_widthOfOp {op : OpField} (h : op.extractLsb' 0 2 ≠ 0b00#2) :
    (Machine.widthOfOp op).bits = 8 * 2 ^ (op.extractLsb' 0 2).toNat := by
  revert op
  decide

end Sys2Proof

open Sys2Proof Sys2Proof.Machine

/-! ## Tier 3 -/

/-- Settles O1: the packed fields read back, and each operation stands in the row of its own selector
(`instrOfOp_opcode`). -/
theorem decodeOfEncodeIsIdentity : Obligations.DecodeOfEncodeIsIdentity := decode_encode

/-! ## Tier 2 -/

/-- Settles O2: a row of the opcode map keeps selector and operands, and they are the whole bundle
(`packReq_fields`). -/
theorem encodeOfDecodeIsIdentity : Obligations.EncodeOfDecodeIsIdentity := fun _ _ => decode_eq_instr_iff.mp

/-- Settles O3: each row's bundle is the operation's own, and bits 135 and 134 are those of its selector. -/
theorem opcodeMapAsTabulated : Obligations.OpcodeMapAsTabulated := by
  unfold Obligations.OpcodeMapAsTabulated
  refine ⟨fun len val bytes => ?_, fun op len val bytes hop => ?_, fun req i h => ?_, fun op => bits_widthOfOp⟩
  · exact ⟨decode_encode (.fenc16 ⟨len, val, bytes⟩), decode_encode (.fenc32 ⟨len, val, bytes⟩),
      decode_encode (.fenc64 ⟨len, val, bytes⟩), decode_encode (.fdec16 ⟨len, val, bytes⟩),
      decode_encode (.fdec32 ⟨len, val, bytes⟩), decode_encode (.fdec64 ⟨len, val, bytes⟩),
      decode_encode (.venc ⟨len, val, bytes⟩), decode_encode (.vdec ⟨len, val, bytes⟩),
      decode_encode (.vcanon ⟨len, val, bytes⟩)⟩
  · exact decode_eq_reservedOp_iff.mpr ⟨reqOp_packReq op ⟨len, val, bytes⟩, hop⟩
  · obtain rfl := decode_eq_instr_iff.mp h
    rw [getLsbD_reqOp _ (j := 3) (by decide), getLsbD_reqOp _ (j := 2) (by decide), reqOp_encode]
    exact ⟨opcode_bit3_eq_false_iff i, opcode_bits32_eq_false_iff i⟩

/-- Settles O4: a bundle's selector has a row of the opcode map or is reserved (`decode_cases`). -/
theorem decodeRejectsExactlyReservedOps : Obligations.DecodeRejectsExactlyReservedOps := fun _ _ =>
  decode_eq_reservedOp_iff

/-! ## Tier 1 -/

/-- Settles O5: each word is the bundle of its operation, or has the reserved selector 0xF, by evaluation. -/
theorem specWordsDecode : Obligations.SpecWordsDecode :=
  ⟨decode_eq_instr_iff.mpr (by decide), decode_eq_instr_iff.mpr (by decide), decode_eq_instr_iff.mpr (by decide),
    decode_eq_instr_iff.mpr (by decide), decode_eq_instr_iff.mpr (by decide), decode_eq_reservedOp_iff.mpr (by decide)⟩
end

section
/-!
PROOFS. Response bundles: the fields of a packed response, and the round trip both ways (30_encoding.md R66,
60_exceptions.md R130).
-/

namespace Sys2Proof.Machine

/-- `err = RSP[134:133]`. -/
theorem extract_pack_err (r : Rsp) : r.pack.extractLsb' 133 2 = r.err.code := by
  have := Bool.toNat_lt r.canon
  apply BitVec.eq_of_toNat_eq
  rw [toNat_extract, toNat_pack]
  omega

/-- `canon = RSP[132]`. -/
theorem getLsbD_pack_canon (r : Rsp) : r.pack.getLsbD 132 = r.canon := by
  rw [Rsp.pack, BitVec.getLsbD_append, if_neg (by decide), BitVec.getLsbD_append, if_neg (by decide),
    BitVec.getLsbD_append, if_pos (by decide)]
  cases r.canon <;> rfl

/-- `len = RSP[131:128]`. -/
theorem extract_pack_len (r : Rsp) : r.pack.extractLsb' 128 4 = r.len := by
  apply BitVec.eq_of_toNat_eq
  rw [toNat_extract, toNat_pack]
  omega

/-- `val = RSP[127:64]`. -/
theorem extract_pack_val (r : Rsp) : r.pack.extractLsb' 64 64 = r.val := by
  apply BitVec.eq_of_toNat_eq
  rw [toNat_extract, toNat_pack]
  omega

/-- `bytes = RSP[63:0]`. -/
theorem extract_pack_bytes (r : Rsp) : r.pack.extractLsb' 0 64 = r.bytes := by
  apply BitVec.eq_of_toNat_eq
  rw [toNat_extract, toNat_pack]
  omega

/-- Unpacking undoes packing. -/
@[simp] theorem unpack_pack (r : Rsp) : Rsp.unpack r.pack = r := by
  rw [Rsp.unpack, extract_pack_err, getLsbD_pack_canon, extract_pack_len, extract_pack_val, extract_pack_bytes,
    ofCode_code]

/-- Packing undoes unpacking: the fields cover all 135 bits. -/
@[simp] theorem pack_unpack (b : RspBundle) : (Rsp.unpack b).pack = b := by
  apply BitVec.eq_of_toNat_eq
  rw [toNat_pack]
  simp only [Rsp.unpack, code_ofCode, toNat_extract, ← BitVec.testBit_toNat, Nat.toNat_testBit]
  omega

end Sys2Proof.Machine

open Sys2Proof Sys2Proof.Machine

/-- Settles O6, field by field. -/
theorem responseBundleRoundTrips : Obligations.ResponseBundleRoundTrips :=
  ⟨fun r => ⟨extract_pack_err r, getLsbD_pack_canon r, extract_pack_len r, extract_pack_val r, extract_pack_bytes r⟩,
    unpack_pack, pack_unpack⟩
end

section
/-!
PROOFS. Assembler lines (30_encoding.md R76): a selector names one legal first word, and a legal line's numbers fit their
fields.
-/

namespace Sys2Proof

/-! ## The first word of a line -/

/-- The first word that names a selector: a left inverse of `AsmOp.opcode` on the words R76 allows. -/
def AsmOp.ofOpcode (op : OpField) : AsmOp :=
  match op with
  | 0x1#4 => .fenc16
  | 0x2#4 => .fenc32
  | 0x3#4 => .fenc64
  | 0x5#4 => .fdec16
  | 0x6#4 => .fdec32
  | 0x7#4 => .fdec64
  | 0x8#4 => .venc
  | 0x9#4 => .vdec
  | 0xA#4 => .vcanon
  | op => .rsvd op.toNat

@[simp] theorem opcode_ofOpcode (op : OpField) : (AsmOp.ofOpcode op).opcode = op := by
  revert op
  decide

theorem ofOpcode_of_reserved {op : OpField} (h : op ∈ reservedOps) : AsmOp.ofOpcode op = .rsvd op.toNat := by
  revert op
  decide

/-- A legal RSVD line names a reserved selector, as a number below 16. -/
theorem rsvd_of_opFits {a : AsmLine} (h : a.opFits = true) {op : Nat} (hop : a.op = .rsvd op) :
    op < 16 ∧ BitVec.ofNat 4 op ∈ reservedOps := by
  simpa [AsmLine.opFits, hop] using h

theorem ofOpcode_opcode {a : AsmLine} (h : a.opFits = true) : AsmOp.ofOpcode a.op.opcode = a.op := by
  cases hop : a.op with
  | rsvd op =>
    obtain ⟨hlt, hmem⟩ := rsvd_of_opFits h hop
    rw [AsmOp.opcode, ofOpcode_of_reserved hmem, BitVec.toNat_ofNat, Nat.mod_eq_of_lt hlt]
  | fenc16 | fenc32 | fenc64 | fdec16 | fdec32 | fdec64 | venc | vdec | vcanon => rfl

/-- The selector a legal line names says what its first word is. -/
theorem opcode_eq_iff_of_opFits {a : AsmLine} (h : a.opFits = true) (op : OpField) :
    a.op.opcode = op ↔ a.op = AsmOp.ofOpcode op :=
  ⟨fun he => by rw [← he, ofOpcode_opcode h], fun he => by rw [he, opcode_ofOpcode]⟩

/-! ## The bundle of a line -/

/-- On a line's own operands, the line's bundle is an operation's exactly when the line names the operation. -/
theorem decode_assemble_iff {a : AsmLine} (h : a.opFits = true) {i : Instr} (hi : i.operands = a.operands) :
    decode a.assemble = .instr i ↔ a.op = AsmOp.ofOpcode i.opcode := by
  rw [decode_eq_instr_iff, ← opcode_eq_iff_of_opFits h]
  refine ⟨fun he => ?_, fun he => by rw [encode, hi, ← he, AsmLine.assemble]⟩
  rw [← reqOp_encode i, he, AsmLine.assemble, reqOp_packReq]

theorem decode_assemble_rsvd {a : AsmLine} (h : a.opFits = true) {op : Nat} (hop : a.op = .rsvd op) :
    decode a.assemble = .reservedOp (BitVec.ofNat 4 op) := by
  refine decode_eq_reservedOp_iff.mpr ⟨?_, (rsvd_of_opFits h hop).2⟩
  rw [AsmLine.assemble, reqOp_packReq, hop, AsmOp.opcode]

/-- The lanes of a legal line are the listed bytes, and zero where the list has ended. -/
theorem toNat_lane_operands {a : AsmLine} (h : a.bytesFit = true) (k : Fin 8) :
    (Machine.lane a.operands.bytes k).toNat = (a.bytes.getD []).getD k.val 0 := by
  have hfit : ∀ b ∈ a.bytes.getD [], b < 256 := by simpa [AsmLine.bytesFit] using h
  have hlt : (a.bytes.getD []).getD k.val 0 < 256 := by
    by_cases hk : k.val < (a.bytes.getD []).length
    · rw [List.getD_eq_getElem _ _ hk]
      exact hfit _ (List.getElem_mem hk)
    · rw [List.getD_eq_default _ _ (Nat.le_of_not_lt hk)]
      decide
  rw [AsmLine.operands, Machine.lane_lanesOfBytes, List.getD_map, BitVec.toNat_ofNat, Nat.mod_eq_of_lt hlt]

/-- A legal line's numbers stand in the fields of its bundle (R60, R76). -/
theorem assemble_fields {a : AsmLine} (hlen : a.lenFits = true) (hval : a.valFits = true) (hbytes : a.bytesFit = true) :
    reqOp a.assemble = a.op.opcode ∧ (reqLen a.assemble).toNat = a.len.getD 0 ∧
      (reqVal a.assemble).toNat = a.val.getD 0 ∧
      ∀ k : Fin 8, (Machine.lane (reqBytes a.assemble) k).toNat = (a.bytes.getD []).getD k.val 0 := by
  rw [AsmLine.assemble, reqOp_packReq, reqLen_packReq, reqVal_packReq, reqBytes_packReq]
  refine ⟨rfl, ?_, ?_, toNat_lane_operands hbytes⟩
  · rw [AsmLine.operands, BitVec.toNat_ofNat, Nat.mod_eq_of_lt (of_decide_eq_true hlen)]
  · rw [AsmLine.operands, BitVec.toNat_ofNat, Nat.mod_eq_of_lt (of_decide_eq_true hval)]

/-! ## The hexadecimal digits of a bundle -/

theorem reqHexDigits_length (req : ReqBundle) : (reqHexDigits req).length = 34 := by
  rw [reqHexDigits, List.length_map, List.length_range]

theorem reqHexDigits_head? (req : ReqBundle) : (reqHexDigits req).head? = some (reqOp req) := rfl

/-- The 34 digits read back as the bundle. -/
theorem foldl_reqHexDigits (req : ReqBundle) :
    (reqHexDigits req).foldl (fun acc d => 16 * acc + d.toNat) 0 = req.toNat := by
  rw [reqHexDigits, hexDigits_prefix req 34 le_rfl, Nat.sub_self, pow_zero, Nat.div_one]

end Sys2Proof

open Sys2Proof Sys2Proof.Machine

/-- Settles O7: the numbers fit their fields (`assemble_fields`), and the selector says which first word the line has
(`decode_assemble_iff`). -/
theorem assemblerLineEncoding : Obligations.AssemblerLineEncoding := by
  unfold Obligations.AssemblerLineEncoding
  intro a h
  simp only [AsmLine.wellFormed, Bool.and_eq_true] at h
  obtain ⟨⟨⟨⟨hlen, hval⟩, -⟩, hbytes⟩, hop⟩ := h
  have hfields := assemble_fields hlen hval hbytes
  have ⟨hsel, _⟩ := hfields
  have hdec : ∀ op : Operands → Instr, (op a.operands).operands = a.operands →
      (decode a.assemble = .instr (op a.operands) ↔ a.op = AsmOp.ofOpcode (op a.operands).opcode) :=
    fun _ => decode_assemble_iff hop
  exact ⟨hfields, hdec .fenc16 rfl, hdec .fenc32 rfl, hdec .fenc64 rfl, hdec .fdec16 rfl, hdec .fdec32 rfl,
    hdec .fdec64 rfl, hdec .venc rfl, hdec .vdec rfl, hdec .vcanon rfl, fun _ => decode_assemble_rsvd hop,
    reqHexDigits_length _, by rw [reqHexDigits_head?, hsel], foldl_reqHexDigits _⟩
end

section
/-!
PROOFS. What an edge does with the pins (30_encoding.md R65, R67), and the request bits that an operation does not read
(R62, R64).
-/

namespace Sys2Proof.Machine

/-- FENCW reads `val[W-1:0]` and nothing else. -/
theorem fenc_congr {w : Width} {o o' : Operands} (h : fixedValue w o = fixedValue w o') : fenc w o = fenc w o' := by
  rw [fenc, fenc, h]

/-- VENC reads `sat8(len)` and `val` and nothing else. -/
theorem vencRsp_congr {o o' : Operands} (hlen : sat8 o.len = sat8 o'.len) (hval : o.val = o'.val) :
    vencRsp o = vencRsp o' := by
  rw [vencRsp, vencRsp, hlen, hval]

/-- VCANON reads `len` and `val` and nothing else. -/
theorem vcanonRsp_congr {o o' : Operands} (hlen : o.len = o'.len) (hval : o.val = o'.val) :
    vcanonRsp o = vcanonRsp o' := by
  rw [vcanonRsp, vcanonRsp, hlen, hval]

/-- Lane vectors that agree on lane 0 have one length tag. -/
theorem varintTag_congr {o o' : Operands} (h : lane o.bytes 0 = lane o'.bytes 0) : varintTag o = varintTag o' := by
  have htop : o.bytes.toNat / 2 ^ (64 - 8 * 1) = o'.bytes.toNat / 2 ^ (64 - 8 * 1) :=
    top_eq_of_lanes (by decide) fun k hk => by rwa [show k = 0 by omega]
  apply BitVec.eq_of_toNat_eq
  rw [toNat_varintTag, toNat_varintTag]
  omega

/-- VDEC reads `sat8(len)` and the lanes of the tier its tag selects, and nothing else. -/
theorem vdecRsp_congr_of_tier {o o' : Operands} (hlen : sat8 o.len = sat8 o'.len)
    (h : ∀ k : Fin 8, k.val < (tagLen (varintTag o)).len → lane o.bytes k = lane o'.bytes k) :
    vdecRsp o = vdecRsp o' := by
  have htag : varintTag o = varintTag o' := varintTag_congr (h 0 (Tier.one_le_len _))
  have hval : varintValue (tagLen (varintTag o)) (varintField (tagLen (varintTag o)) o) =
      varintValue (tagLen (varintTag o)) (varintField (tagLen (varintTag o)) o') := by
    apply BitVec.eq_of_toNat_eq
    rw [toNat_varintValue, toNat_varintValue, top_eq_of_lanes (Tier.len_le _) h]
  rw [vdecRsp, vdecRsp, hval, htag, hlen]

/-- From the first reset edge on, the edge of a valid request with a reserved selector depends on no other bit of it
(R68). -/
theorem step_present_reserved {s : State} (hs : s.phase = .ready) {req : ReqBundle} (h : reqOp req ∈ reservedOps) :
    step (s.present ⟨false, true, req⟩) =
      .next { s1 := ⟨true, raise .illegalOp⟩, later := (s.s1 :: s.later).dropLast, inputs := s.inputs.tail,
              phase := .ready } := by
  have hready : (s.present ⟨false, true, req⟩).phase = .ready := hs
  rw [step_eq_edge, edge_of_ready hready (by rw [sampled_present]), sampled_present, load_of_inValid rfl,
    execRsp_reserved h, present_s1, present_later, present_inputs, List.tail_cons]

end Sys2Proof.Machine

open Sys2Proof Sys2Proof.Machine

/-- Settles O10: an edge without reset loads what the sample says, whatever the stages hold (`edge_of_ready`). -/
theorem issueRule : Obligations.IssueRule := by
  unfold Obligations.IssueRule
  refine ⟨fun s req hs hin => ?_, fun s req hs hin => ⟨_, step_eq_edge s, ?_⟩⟩
  · have hsampled := sampled_of_head hin
    rw [step_eq_edge, edge_of_ready hs (by rw [hsampled]), hsampled, load_of_not_inValid rfl]
    rfl
  · have hsampled := sampled_of_head hin
    rw [edge_of_ready hs (by rw [hsampled]), hsampled, load_of_inValid rfl]

/-- Settles O14: a step is an edge, a run is a number of edges, and an edge keeps the latency. -/
theorem everyStepAnswersNext : Obligations.EveryStepAnswersNext := fun s =>
  ⟨⟨s.edge, step_eq_edge s⟩, fun k => ⟨State.edge^[k] s, run_eq_iterate k s, iterate_edge_lat k s⟩⟩

/-- Settles O41: each operation's response is a function of what R62 says it reads, and a reserved op's of nothing. -/
theorem unreadBitsNeverMatter : Obligations.UnreadBitsNeverMatter := by
  unfold Obligations.UnreadBitsNeverMatter
  intro o o' s hs
  refine ⟨fun h => exec_congr ?_ s, fun h => exec_congr ?_ s, fun h => exec_congr ?_ s, fun h => exec_congr ?_ s,
    fun h => exec_congr ?_ s, fun h => exec_congr ?_ s, fun hlen hval => exec_congr ?_ s,
    fun hlen h => exec_congr ?_ s, fun hlen hval => exec_congr ?_ s, fun req req' hop hres => ?_⟩
  · rw [execRsp_fenc16, execRsp_fenc16]
    exact fenc_congr h
  · rw [execRsp_fenc32, execRsp_fenc32]
    exact fenc_congr h
  · rw [execRsp_fenc64, execRsp_fenc64]
    exact fenc_congr (by rw [fixedValue, fixedValue, h])
  · rw [execRsp_fdec16, execRsp_fdec16]
    exact fdec_congr h
  · rw [execRsp_fdec32, execRsp_fdec32]
    exact fdec_congr h
  · rw [execRsp_fdec64, execRsp_fdec64]
    exact fdec_congr fun _ _ => by rw [h]
  · rw [execRsp_venc, execRsp_venc]
    exact vencRsp_congr hlen hval
  · rw [execRsp_vdec, execRsp_vdec]
    exact vdecRsp_congr_of_tier hlen (by rwa [len_tagLen])
  · rw [execRsp_vcanon, execRsp_vcanon]
    exact vcanonRsp_congr hlen hval
  · have hres' : req'.extractLsb' 132 4 ∈ reservedOps := by rwa [← hop]
    rw [step_present_reserved hs hres, step_present_reserved hs hres']
end

section
/-!
PROOFS. The fixed-width family (40_fixed_width.md): FENC and FDEC as bytes, as the lane loops of their pseudocode, and as
inverses of each other (R80 to R89).
-/

namespace Sys2Proof.Machine

/-! ## A request and its response -/

/-- A bundle with an operation's selector and operand fields decodes to it (30_encoding.md R60, R61). -/
theorem decode_of_fields {req : ReqBundle} {i : Instr} (hop : reqOp req = i.opcode)
    (hfields : reqOperands req = i.operands) : decode req = .instr i :=
  decode_eq_instr_iff.mpr (by rw [encode, ← hop, ← hfields, packReq_fields])

/-- All that an operation's edge does from the first reset edge on. -/
theorem exec_ready {s : State} (hs : s.phase = .ready) (i : Instr) :
    exec i s = .next { s1 := ⟨true, execRsp (encode i)⟩, later := (s.s1 :: s.later).dropLast, inputs := s.inputs,
                       phase := .ready } := by
  rw [exec_eq_respond, respond_ready hs]

/-! ## The six responses (R82 to R84, R86 to R88) -/

/-- FENCW answers the lanes that hold the low W bits of the value at the top (R80). -/
theorem fenc_eq {w : Width} {o : Operands} {b : LaneVec}
    (h : b.toNat = o.val.toNat % 2 ^ w.bits * 2 ^ (64 - w.bits)) : fenc w o = ⟨.ok, false, w.lenField, 0#64, b⟩ := by
  have hbytes : (fenc w o).bytes = b := BitVec.eq_of_toNat_eq (by rw [toNat_fenc_bytes, h])
  rw [← hbytes]
  rfl

/-- FDECW answers the integer in the top W bits of the lanes (R80). -/
theorem fdec_eq {w : Width} {o : Operands} {v : Word} (h : v.toNat = o.bytes.toNat / 2 ^ (64 - w.bits)) :
    fdec w o = ⟨.ok, false, w.lenField, v, 0#64⟩ := by
  have hval : (fdec w o).val = v := BitVec.eq_of_toNat_eq (by rw [toNat_fdec_val, h])
  rw [← hval]
  rfl

theorem fenc_w16 (o : Operands) :
    fenc .w16 o = ⟨.ok, false, 2#4, 0#64, o.val.extractLsb' 8 8 ++ o.val.extractLsb' 0 8 ++ 0#48⟩ := by
  refine fenc_eq ?_
  rw [toNat_append_eq, toNat_append_eq, toNat_extract, toNat_extract]
  simp only [Width.bits, BitVec.toNat_ofNat]
  omega

theorem fenc_w32 (o : Operands) : fenc .w32 o = ⟨.ok, false, 4#4, 0#64, o.val.extractLsb' 0 32 ++ 0#32⟩ := by
  refine fenc_eq ?_
  rw [toNat_append_eq, toNat_extract]
  simp only [Width.bits, BitVec.toNat_ofNat]
  omega

theorem fenc_w64 (o : Operands) : fenc .w64 o = ⟨.ok, false, 8#4, 0#64, o.val⟩ := by
  have hval := o.val.isLt
  refine fenc_eq ?_
  simp only [Width.bits]
  omega

theorem fdec_w16 (o : Operands) :
    fdec .w16 o = ⟨.ok, false, 2#4, 0#48 ++ (lane o.bytes 0 ++ lane o.bytes 1), 0#64⟩ := by
  have hbytes := o.bytes.isLt
  refine fdec_eq ?_
  rw [toNat_append_eq, toNat_append_eq, toNat_lane, toNat_lane]
  simp only [Width.bits, BitVec.toNat_ofNat, Fin.val_zero, Fin.val_one]
  omega

theorem fdec_w32 (o : Operands) : fdec .w32 o = ⟨.ok, false, 4#4, 0#32 ++ o.bytes.extractLsb' 32 32, 0#64⟩ := by
  have hbytes := o.bytes.isLt
  refine fdec_eq ?_
  rw [toNat_append_eq, toNat_extract]
  simp only [Width.bits, BitVec.toNat_ofNat]
  omega

theorem fdec_w64 (o : Operands) : fdec .w64 o = ⟨.ok, false, 8#4, o.bytes, 0#64⟩ := fdec_eq (Nat.div_one _).symm

/-! ## The lanes of an encoding -/

/-- FENCW's lanes: the value's bytes, then zeros (R81). -/
theorem lane_fenc_bytes_eq_ite (w : Width) (o : Operands) (k : Fin 8) :
    lane (fenc w o).bytes k = if 8 * k.val < w.bits then o.val.extractLsb' (w.bits - 8 - 8 * k.val) 8 else 0#8 := by
  split
  case isTrue hk => exact lane_fenc_bytes o hk
  case isFalse hk =>
    obtain ⟨-, -, hzero, -⟩ := fenc_legal w o
    have hlen : 8 * (fenc w o).len.toNat = w.bits := w.eight_mul_toNat_lenField
    exact hzero k (by omega)

/-! ## The lane loops (R81, R85) -/

/-- A loop of lane writes changes the bytes of a response alone. -/
theorem foldl_bufWrite (f : Fin 8 → Byte) (l : List (Fin 8)) (r : Rsp) :
    l.foldl (fun r i => r.bufWrite i (f i)) r = { r with bytes := l.foldl (fun b i => setLane b i (f i)) r.bytes } := by
  induction l generalizing r with
  | nil => rfl
  | cons i l ih => rw [List.foldl_cons, ih]; rfl

/-- A loop that writes `f i` into each lane `i` of a list leaves the other lanes. -/
theorem lane_foldl_setLane (f : Fin 8 → Byte) (l : List (Fin 8)) (b : LaneVec) (k : Fin 8) :
    lane (l.foldl (fun b i => setLane b i (f i)) b) k = if k ∈ l then f k else lane b k := by
  induction l generalizing b with
  | nil => simp
  | cons i l ih =>
    rw [List.foldl_cons, ih, lane_setLane]
    by_cases hki : k = i
    · subst hki
      simp
    · simp [hki]

/-- The concatenation of the first `n` lanes is the top `8n` bits. -/
theorem foldl_lane_take (b : LaneVec) {n : Nat} (hn : n ≤ 8) :
    ((List.finRange 8).take n).foldl (fun acc i => 256 * acc + (lane b i).toNat) 0 = b.toNat / 2 ^ (64 - 8 * n) := by
  induction n with
  | zero => exact (Nat.div_eq_of_lt b.isLt).symm
  | succ n ih =>
    have hlt : n < (List.finRange 8).length := by rwa [List.length_finRange]
    have hpow : 2 ^ (64 - 8 * n) = 2 ^ (56 - 8 * n) * 256 := by
      rw [show 256 = 2 ^ 8 by rfl, ← pow_add]
      congr 1
      omega
    rw [List.take_succ_eq_append_getElem hlt, List.foldl_append, ih (Nat.le_of_succ_le hn), List.foldl_cons,
      List.foldl_nil, List.getElem_finRange, toNat_lane, hpow, ← Nat.div_div_eq_div_mul,
      show 64 - 8 * (n + 1) = 56 - 8 * n by omega]
    exact Nat.div_add_mod _ _

/-- The lanes of a width are the first `W/8`. -/
theorem Width.filter_lanes (w : Width) :
    (List.finRange 8).filter (fun i => decide (8 * i.val < w.bits)) = (List.finRange 8).take w.bytes := by
  cases w <;> decide

/-- FENCW is the loop of R81. -/
theorem fenc_eq_loop (w : Width) (o : Operands) :
    fenc w o =
      { ((List.finRange 8).filter fun i => decide (8 * i.val < w.bits)).foldl
          (fun r i => r.bufWrite i (o.val.extractLsb' (w.bits - 8 - 8 * i.val) 8)) Rsp.zero with
        len := w.lenField } := by
  rw [foldl_bufWrite fun i => o.val.extractLsb' (w.bits - 8 - 8 * i.val) 8, fenc, Rsp.mk.injEq]
  refine ⟨rfl, rfl, rfl, rfl, lanes_ext fun k => ?_⟩
  refine (lane_fenc_bytes_eq_ite w o k).trans ?_
  rw [lane_foldl_setLane fun i => o.val.extractLsb' (w.bits - 8 - 8 * i.val) 8]
  simp [Rsp.zero]

/-- FDECW is the loop of R85. -/
theorem fdec_eq_loop (w : Width) (o : Operands) :
    fdec w o =
      { Rsp.zero with
        len := w.lenField
        val := BitVec.ofNat 64 (((List.finRange 8).filter fun i => decide (8 * i.val < w.bits)).foldl
          (fun acc i => 256 * acc + (bufRead o i).toNat) 0) } := by
  have hbits : 8 * w.bytes = w.bits := by cases w <;> rfl
  have hloop := foldl_lane_take o.bytes (n := w.bytes) (by cases w <;> decide)
  rw [hbits, ← toNat_fdec_val, ← w.filter_lanes] at hloop
  simp only [bufRead, hloop, BitVec.ofNat_toNat, BitVec.setWidth_eq]
  rfl

/-! ## The round trips (R89) -/

/-- Decoding an encoding of a W-bit value gives the value. -/
theorem fdec_val_of_fenc {w : Width} {o o' : Operands} (hval : o.val.toNat < 2 ^ w.bits)
    (hbytes : o'.bytes = (fenc w o).bytes) : (fdec w o').val = o.val := by
  apply BitVec.eq_of_toNat_eq
  rw [toNat_fdec_val, hbytes, toNat_fenc_bytes, Nat.mul_div_cancel _ (Nat.two_pow_pos _), Nat.mod_eq_of_lt hval]

/-- Encoding a decoded integer gives the lanes that the decode read, and zeros. -/
theorem lane_fenc_of_fdec {w : Width} {o o' : Operands} (hval : o'.val = (fdec w o).val) (k : Fin 8) :
    lane (fenc w o').bytes k = if 8 * k.val < w.bits then lane o.bytes k else 0#8 := by
  rw [lane_fenc_bytes_eq_ite, hval]
  split
  case isTrue hk => exact extract_fdec_val o hk
  case isFalse => rfl

end Sys2Proof.Machine

open Sys2Proof Sys2Proof.Machine

/-! ## Tier 3 -/

/-- Settles O24, for each width by `fdec_val_of_fenc` and `lane_fenc_of_fdec`. -/
theorem fixedWidthRoundTrips : Obligations.FixedWidthRoundTrips := by
  unfold Obligations.FixedWidthRoundTrips
  intro enc dec w hrow
  obtain ⟨W, rfl, henc, hdec⟩ := fixedWidth_row hrow
  refine ⟨fun o o' s s' t t' hs hs' hval h hbytes h' => ?_, fun o o' s s' t t' hs hs' h hval h' => ?_⟩
  · rw [exec_s1 hs h, henc] at hbytes
    rw [exec_s1 hs' h', hdec]
    exact fdec_val_of_fenc hval hbytes
  · rw [exec_s1 hs h, hdec] at hval
    rw [exec_s1 hs' h', henc]
    exact lane_fenc_of_fdec hval

/-! ## Tier 2 -/

/-- Settles O22, for each width by `fenc_eq_loop` and `fdec_eq_loop`. -/
theorem fixedWidthPseudocode : Obligations.FixedWidthPseudocode := by
  unfold Obligations.FixedWidthPseudocode
  intro enc dec w hrow o s
  obtain ⟨W, rfl, henc, hdec⟩ := fixedWidth_row hrow
  rw [exec_eq_respond, exec_eq_respond, henc, hdec, fenc_eq_loop, fdec_eq_loop]
  exact ⟨rfl, rfl⟩

/-! ## Tier 1 -/

/-- Settles O16: two bytes, `val[15:8]` in lane 0 (`fenc_w16`). -/
theorem fenc16Result : Obligations.Fenc16Result :=
  ⟨fun _ hop => decode_of_fields hop rfl, fun o _ hs => by rw [exec_ready hs, execRsp_fenc16, fenc_w16]⟩

/-- Settles O17: `val[31:0]` in lanes 0 to 3 (`fenc_w32`). -/
theorem fenc32Result : Obligations.Fenc32Result :=
  ⟨fun _ hop => decode_of_fields hop rfl, fun o _ hs => by rw [exec_ready hs, execRsp_fenc32, fenc_w32]⟩

/-- Settles O18: the value fills all eight lanes (`fenc_w64`). -/
theorem fenc64Result : Obligations.Fenc64Result :=
  ⟨fun _ hop => decode_of_fields hop rfl, fun o _ hs => by rw [exec_ready hs, execRsp_fenc64, fenc_w64]⟩

/-- Settles O19: lane 0 above lane 1 (`fdec_w16`). -/
theorem fdec16Result : Obligations.Fdec16Result :=
  ⟨fun _ hop => decode_of_fields hop rfl, fun o _ hs => by rw [exec_ready hs, execRsp_fdec16, fdec_w16]⟩

/-- Settles O20: the upper half of the lane vector (`fdec_w32`). -/
theorem fdec32Result : Obligations.Fdec32Result :=
  ⟨fun _ hop => decode_of_fields hop rfl, fun o _ hs => by rw [exec_ready hs, execRsp_fdec32, fdec_w32]⟩

/-- Settles O21: the whole lane vector (`fdec_w64`). -/
theorem fdec64Result : Obligations.Fdec64Result :=
  ⟨fun _ hop => decode_of_fields hop rfl, fun o _ hs => by rw [exec_ready hs, execRsp_fdec64, fdec_w64]⟩
end

section
/-!
PROOFS. The varint family (41_varint.md): what `MinLen` is and when a length is the minimal one, the three responses field
by field, and decodes of canonical and of longer encodings (R100 to R116).
-/

namespace Sys2Proof.Machine

/-! ## `MinLen` and the tiers (R102) -/

/-- The smallest value that no shorter tier than this one holds. -/
def Tier.least (t : Tier) : Nat :=
  match t with
  | .l1 => 0
  | .l2 => 2 ^ 6
  | .l4 => 2 ^ 14
  | .l8 => 2 ^ 30

/-- A tier's values are in the domain. -/
theorem Tier.usableBits_le (t : Tier) : t.usableBits ≤ 62 := by cases t <;> decide

theorem lt_domain_of_fits {v : Word} {t : Tier} (h : v.toNat < 2 ^ t.usableBits) : v.toNat < 2 ^ 62 :=
  h.trans_le (Nat.pow_le_pow_right (by decide) t.usableBits_le)

/-- The value ranges of the tiers follow each other: what a tier holds lies below the least value of a longer one. -/
theorem Tier.two_pow_usableBits_le_least {t u : Tier} (h : t.len < u.len) : 2 ^ t.usableBits ≤ u.least := by
  revert h
  cases t <;> cases u <;> decide

theorem least_minLen_le (v : Word) : (minLen v).least ≤ v.toNat := by
  unfold minLen
  split_ifs <;> simp only [Tier.least] <;> omega

/-- A tier is no shorter than `MinLen` exactly when the value fits it. -/
theorem minLen_le_iff {v : Word} (hv : v.toNat < 2 ^ 62) (t : Tier) :
    (minLen v).len ≤ t.len ↔ v.toNat < 2 ^ t.usableBits := by
  refine ⟨fun h => (minLen_fits hv).trans_le (Nat.pow_le_pow_right (by decide) ?_), fun hfit => ?_⟩
  · simp only [Tier.usableBits]
    omega
  · by_contra hlonger
    have hle := (Tier.two_pow_usableBits_le_least (Nat.lt_of_not_le hlonger)).trans (least_minLen_le v)
    exact (hfit.trans_le hle).false

/-- `MinLen` of a value in the domain is the tier whose value range the value lies in. -/
theorem minLen_eq_iff {v : Word} (hv : v.toNat < 2 ^ 62) (t : Tier) :
    minLen v = t ↔ t.least ≤ v.toNat ∧ v.toNat < 2 ^ t.usableBits := by
  constructor
  · rintro rfl
    exact ⟨least_minLen_le v, minLen_fits hv⟩
  · rintro ⟨hleast, hfit⟩
    refine Tier.len_injective (((minLen_le_iff hv t).mpr hfit).antisymm ?_)
    by_contra hshorter
    have hle := (Tier.two_pow_usableBits_le_least (Nat.lt_of_not_le hshorter)).trans hleast
    exact ((minLen_fits hv).trans_le hle).false

/-- The lengths of the encodings are those of the tiers. -/
theorem exists_tier_of_len {l : Nat} (h : l ∈ [1, 2, 4, 8]) : ∃ t : Tier, l = t.len := by
  simp only [List.mem_cons, List.not_mem_nil, or_false] at h
  rcases h with rfl | rfl | rfl | rfl
  · exact ⟨.l1, rfl⟩
  · exact ⟨.l2, rfl⟩
  · exact ⟨.l4, rfl⟩
  · exact ⟨.l8, rfl⟩

/-- Each row of the statement's table of length tags is one tier, with its tag (R101). -/
theorem exists_tier_of_tag {tag l : Nat} (h : (tag, l) ∈ [(0, 1), (1, 2), (2, 4), (3, 8)]) :
    ∃ t : Tier, tag = (lenTag t).toNat ∧ l = t.len := by
  simp only [List.mem_cons, Prod.mk.injEq, List.not_mem_nil, or_false] at h
  rcases h with ⟨rfl, rfl⟩ | ⟨rfl, rfl⟩ | ⟨rfl, rfl⟩ | ⟨rfl, rfl⟩
  · exact ⟨.l1, rfl, rfl⟩
  · exact ⟨.l2, rfl, rfl⟩
  · exact ⟨.l4, rfl, rfl⟩
  · exact ⟨.l8, rfl, rfl⟩

/-- A field of a value that has no bit above it is zero exactly when the value lies below the field. -/
theorem extract_ne_zero_iff {v : Word} (s l : Nat) (hv : v.toNat < 2 ^ (s + l)) :
    v.extractLsb' s l ≠ 0#l ↔ 2 ^ s ≤ v.toNat := by
  have hdiv : v.toNat / 2 ^ s < 2 ^ l := Nat.div_lt_of_lt_mul (by rwa [← pow_add])
  rw [ne_eq, ← BitVec.toNat_inj, toNat_extract, Nat.mod_eq_of_lt hdiv, BitVec.toNat_ofNat, Nat.zero_mod,
    Nat.div_eq_zero_iff_lt (Nat.two_pow_pos s), Nat.not_lt]

/-- `MinLen` as the dispatcher's priority select over the value's bits (R102). -/
theorem len_minLen_eq_select {v : Word} (hv : v.toNat < 2 ^ 62) :
    (minLen v).len =
      if v.extractLsb' 30 32 ≠ 0#32 then 8
      else if v.extractLsb' 14 16 ≠ 0#16 then 4
      else if v.extractLsb' 6 8 ≠ 0#8 then 2
      else 1 := by
  have hranges : (minLen v).len =
      if 2 ^ 30 ≤ v.toNat then 8 else if 2 ^ 14 ≤ v.toNat then 4 else if 2 ^ 6 ≤ v.toNat then 2 else 1 := by
    unfold minLen
    split_ifs <;> simp only [Tier.len] <;> omega
  rw [hranges]
  exact (if_ctx_congr (extract_ne_zero_iff 30 32 hv) (fun _ => rfl) fun h30 =>
    if_ctx_congr (extract_ne_zero_iff 14 16 (Nat.lt_of_not_le h30)) (fun _ => rfl) fun h14 =>
      if_congr (extract_ne_zero_iff 6 8 (Nat.lt_of_not_le h14)) rfl rfl).symm

/-! ## The length operand (30_encoding.md R63) -/

theorem len_le_sat8_iff (t : Tier) (len : LenField) : t.len ≤ sat8 len ↔ t.len ≤ len.toNat := by
  rw [sat8, le_min_iff, and_iff_left t.len_le]

theorem len_le_sat8_lenField (t : Tier) : t.len ≤ sat8 t.lenField := by
  rw [len_le_sat8_iff, Tier.toNat_lenField]

/-! ## The verdict of VCANON (R112, R116) -/

/-- A length is `MinLen` of a value in the domain exactly when the pair lies in the source's concrete ranges. -/
theorem minLen_eq_iff_ranges (v : Word) (len : LenField) :
    (v.toNat < 2 ^ 62 ∧ len = (minLen v).lenField) ↔
      (len = 1#4 ∧ v.toNat ≤ 63) ∨
      (len = 2#4 ∧ 64 ≤ v.toNat ∧ v.toNat ≤ 0x3FFF) ∨
      (len = 4#4 ∧ 0x4000 ≤ v.toNat ∧ v.toNat ≤ 0x3FFFFFFF) ∨
      (len = 8#4 ∧ 0x40000000 ≤ v.toNat ∧ v.toNat ≤ 0x3FFFFFFFFFFFFFFF) := by
  constructor
  · rintro ⟨hv, rfl⟩
    have hrange := (minLen_eq_iff hv _).mp rfl
    cases hmin : minLen v <;> rw [hmin] at hrange <;> simp only [Tier.least, Tier.usableBits, Tier.len] at hrange
    · exact .inl ⟨rfl, by omega⟩
    · exact .inr (.inl ⟨rfl, by omega⟩)
    · exact .inr (.inr (.inl ⟨rfl, by omega⟩))
    · exact .inr (.inr (.inr ⟨rfl, by omega⟩))
  · have hback : ∀ t : Tier, len = t.lenField → t.least ≤ v.toNat → v.toNat < 2 ^ t.usableBits →
        v.toNat < 2 ^ 62 ∧ len = (minLen v).lenField := fun t hlen hle hlt =>
      ⟨lt_domain_of_fits hlt, by rw [hlen, (minLen_eq_iff (lt_domain_of_fits hlt) t).mpr ⟨hle, hlt⟩]⟩
    rintro (⟨hlen, hle⟩ | ⟨hlen, hge, hle⟩ | ⟨hlen, hge, hle⟩ | ⟨hlen, hge, hle⟩)
    · exact hback .l1 hlen (Nat.zero_le _) (Nat.lt_succ_of_le hle)
    · exact hback .l2 hlen hge (Nat.lt_succ_of_le hle)
    · exact hback .l4 hlen hge (Nat.lt_succ_of_le hle)
    · exact hback .l8 hlen hge (Nat.lt_succ_of_le hle)

/-- A value that fits a tier has it as `MinLen` exactly when no tier is shorter, or the next-smaller one, of half the
length, does not hold the value (R116). -/
theorem minLen_eq_iff_not_next_smaller {v : Word} {t : Tier} (hv : v.toNat < 2 ^ t.usableBits) :
    minLen v = t ↔ t = .l1 ∨ 2 ^ (8 * (t.len / 2) - 2) ≤ v.toNat := by
  rw [minLen_eq_iff (lt_domain_of_fits hv), and_iff_left hv]
  cases t with
  | l1 => exact iff_of_true (Nat.zero_le _) (.inl rfl)
  | l2 => exact ⟨.inr, fun h => h.resolve_left nofun⟩
  | l4 => exact ⟨.inr, fun h => h.resolve_left nofun⟩
  | l8 => exact ⟨.inr, fun h => h.resolve_left nofun⟩

/-! ## The responses field by field -/

/-- The edge of an operation whose response is known. -/
theorem exec_of_rsp {s : State} (hs : s.phase = .ready) {i : Instr} {r : Rsp} (h : execRsp (encode i) = r) :
    exec i s = .next { s1 := ⟨true, r⟩, later := (s.s1 :: s.later).dropLast, inputs := s.inputs, phase := .ready } := by
  rw [exec_ready hs, h]

/-- A field above `n` zero bits, as a number. -/
theorem toNat_append_zeros {m : Nat} (x : BitVec m) (n : Nat) : (x ++ 0#n).toNat = x.toNat * 2 ^ n := by
  rw [toNat_append_eq, BitVec.toNat_zero, Nat.add_zero]

/-- A field below `n` zero bits, as a number. -/
theorem toNat_zeros_append {m : Nat} (n : Nat) (x : BitVec m) : (0#n ++ x).toNat = x.toNat := by
  rw [toNat_append_eq, BitVec.toNat_zero, Nat.zero_mul, Nat.zero_add]

/-- The six value bits of lane 0 (R111). -/
theorem toNat_lane_zero_low (b : LaneVec) : ((lane b 0).extractLsb' 0 6).toNat = b.toNat / 2 ^ 56 % 2 ^ 6 := by
  rw [toNat_extract, toNat_lane, pow_zero, Nat.div_one]
  exact Nat.mod_mod_of_dvd _ (by decide)

/-- The low `m` bits above lane `k`, with lane `k` below them, are the low `m + 8` bits from lane `k` up. -/
theorem toNat_append_lane {m : Nat} {x : BitVec m} {b : LaneVec} (k : Fin 8)
    (h : x.toNat = b.toNat / 2 ^ (64 - 8 * k.val) % 2 ^ m) :
    (x ++ lane b k).toNat = b.toNat / 2 ^ (56 - 8 * k.val) % 2 ^ (m + 8) := by
  have hk := k.isLt
  have hsplit : 2 ^ (64 - 8 * k.val) = 2 ^ (56 - 8 * k.val) * 2 ^ 8 := by
    rw [← pow_add]
    congr 1
    omega
  rw [toNat_append_eq, h, toNat_lane, hsplit, ← Nat.div_div_eq_div_mul, pow_add, Nat.mul_comm (2 ^ m), Nat.mod_mul,
    Nat.mul_comm, Nat.add_comm]
  rfl

/-- VENC of a value of one tier: the capacity check, then the lanes that hold the tag and the value at the top (R105,
30_encoding.md R74). -/
theorem vencRsp_of_tier {t : Tier} {o : Operands} {b : LaneVec} (hle : t.least ≤ o.val.toNat)
    (hlt : o.val.toNat < 2 ^ t.usableBits)
    (hb : b.toNat = (varintEncoding t o.val).toNat * 2 ^ (64 - 8 * t.len)) :
    vencRsp o = if sat8 o.len < t.len then raise .bufShort else ⟨.ok, false, t.lenField, 0#64, b⟩ := by
  have hv := lt_domain_of_fits hlt
  obtain rfl := (minLen_eq_iff hv t).mpr ⟨hle, hlt⟩
  split
  case isTrue hshort => exact vencRsp_short hv hshort
  case isFalse hcap =>
    rw [toNat_varintEncoding hlt, ← toNat_venc_bytes hv] at hb
    rw [vencRsp_ok hv (Nat.le_of_not_lt hcap), BitVec.eq_of_toNat_eq hb]

/-- The fourth length tag is what the other three leave (R100). -/
theorem tag_eq_three {t : BitVec 2} (h0 : t ≠ 0b00#2) (h1 : t ≠ 0b01#2) (h2 : t ≠ 0b10#2) : t = 0b11#2 := by
  revert t
  decide

/-- VDEC of one tag: the availability check, then the bits below the tag (R110). -/
theorem vdecRsp_of_tag {t : Tier} {o : Operands} {v : Word} (htag : varintTag o = lenTag t)
    (hval : v.toNat = o.bytes.toNat / 2 ^ (64 - 8 * t.len) % 2 ^ t.usableBits) :
    vdecRsp o = if sat8 o.len < t.len then raise .bufShort else ⟨.ok, false, t.lenField, v, 0#64⟩ := by
  obtain rfl : tagLen (varintTag o) = t := by rw [htag, tagLen_lenTag]
  split
  case isTrue hshort => exact vdecRsp_short hshort
  case isFalse havail =>
    rw [vdecRsp_ok (Nat.le_of_not_lt havail), BitVec.eq_of_toNat_eq (hval.trans (toNat_varintValue _ o).symm)]

/-- What VDEC answers with OK is a tier's length and a value that fits the tier (R110, R116). -/
theorem vdecRsp_ok_fits {o : Operands} (h : (vdecRsp o).err = .ok) :
    ∃ (t : Tier) (v : Word), v.toNat < 2 ^ t.usableBits ∧ vdecRsp o = ⟨.ok, false, t.lenField, v, 0#64⟩ := by
  refine ⟨_, _, ?_, vdecRsp_ok ((vdecRsp_err_ok_iff o).mp h)⟩
  rw [toNat_varintValue]
  exact Nat.mod_lt _ (Nat.two_pow_pos _)

/-- VCANON answers OK, a length and a verdict, and nothing else (R112). -/
theorem vcanonRsp_fields (o : Operands) :
    vcanonRsp o = ⟨.ok, (vcanonRsp o).canon, if 2 ^ 62 ≤ o.val.toNat then 0#4 else (minLen o.val).lenField, 0#64, 0#64⟩ := by
  split
  case isTrue hout => rw [vcanonRsp_out hout]; rfl
  case isFalse hin => rw [vcanonRsp_in (Nat.lt_of_not_le hin)]

theorem lenField_minLen (v : Word) :
    (minLen v).lenField =
      if v.toNat < 2 ^ 6 then 1#4 else if v.toNat < 2 ^ 14 then 2#4 else if v.toNat < 2 ^ 30 then 4#4 else 8#4 := by
  unfold minLen
  split_ifs <;> rfl

end Sys2Proof.Machine

open Sys2Proof Sys2Proof.Machine

/-! ## Tier 3 -/

/-- Settles O31: VDEC reads VENC's lanes back (`vdecRsp_of_venc_lanes`), so VCANON sees the value with its `MinLen`, and
VENC its own operands again. -/
theorem canonicalRoundTrip : Obligations.CanonicalRoundTrip := by
  unfold Obligations.CanonicalRoundTrip
  intro o s t hs hlen hv henc
  rw [exec_s1 hs henc, execRsp_venc, vencRsp_ok_of_len_eight hlen hv]
  refine ⟨rfl, Tier.toNat_lenField _, fun o' s' t' hs' hlen' hbytes' hdec => ?_⟩
  have hrsp : vdecRsp o' = ⟨.ok, false, (minLen o.val).lenField, o.val, 0#64⟩ :=
    vdecRsp_of_venc_lanes hv (fun _ _ => by rw [hbytes']) (by rw [hlen']; exact len_le_sat8_lenField _)
  rw [exec_s1 hs' hdec, execRsp_vdec, hrsp]
  refine ⟨rfl, fun o'' s'' t'' hs'' hlen'' hval'' hcanon => ?_, fun o'' s'' t'' hs'' hlen'' hval'' henc' => ?_⟩
  · rw [exec_s1 hs'' hcanon, execRsp_vcanon, vcanonRsp_canon_iff, hval'', hlen'']
    exact ⟨hv, rfl⟩
  · rw [exec_s1 hs'' henc', execRsp_venc, vencRsp_congr (by rw [hlen'', hlen]) hval'', vencRsp_ok_of_len_eight hlen hv]
    exact ⟨rfl, rfl⟩

/-- Settles O32: the value fits the longer tier (`minLen_le_iff`), so VDEC reads it from the tier's field
(`vdecRsp_of_top`), and VCANON compares another length with `MinLen`. -/
theorem nonCanonicalDecode : Obligations.NonCanonicalDecode := by
  unfold Obligations.NonCanonicalDecode
  intro v tag L o s t hs hv hrow hlonger htop havail hdec
  obtain ⟨T, rfl, rfl⟩ := exists_tier_of_tag hrow
  have hrsp : vdecRsp o = ⟨.ok, false, T.lenField, v, 0#64⟩ :=
    vdecRsp_of_top ((minLen_le_iff hv T).mp hlonger.le) htop ((len_le_sat8_iff T _).mpr havail)
  rw [exec_s1 hs hdec, execRsp_vdec, hrsp]
  refine ⟨rfl, fun o' s' t' hs' hlen' hval' hcanon => ?_⟩
  rw [exec_s1 hs' hcanon, execRsp_vcanon, ← Bool.not_eq_true, vcanonRsp_canon_iff, hlen', hval']
  rintro ⟨-, hmin⟩
  rw [← Tier.lenField_inj.mp hmin] at hlonger
  exact hlonger.false

/-! ## Tier 2 -/

/-- Settles O26, for each range of values by `vencRsp_of_tier`. -/
theorem vencResult : Obligations.VencResult := by
  unfold Obligations.VencResult
  refine ⟨fun _ hop => decode_of_fields hop rfl, fun o s hs => exec_of_rsp hs ((execRsp_venc o).trans ?_)⟩
  split
  case isTrue hrange => exact vencRsp_range hrange
  case isFalse hrange =>
    split
    case isTrue h6 => exact vencRsp_of_tier (t := .l1) (Nat.zero_le _) h6 (toNat_append_zeros _ 56)
    case isFalse h6 =>
      split
      case isTrue h14 => exact vencRsp_of_tier (t := .l2) (Nat.le_of_not_lt h6) h14 (toNat_append_zeros _ 48)
      case isFalse h14 =>
        split
        case isTrue h30 => exact vencRsp_of_tier (t := .l4) (Nat.le_of_not_lt h14) h30 (toNat_append_zeros _ 32)
        case isFalse h30 =>
          exact vencRsp_of_tier (t := .l8) (Nat.le_of_not_lt h30) (Nat.lt_of_not_le hrange) (Nat.mul_one _).symm

/-- Settles O27, for each tag by `vdecRsp_of_tag`: the six value bits of lane 0, then the tier's other lanes below them
(`toNat_append_lane`). -/
theorem vdecResult : Obligations.VdecResult := by
  unfold Obligations.VdecResult
  refine ⟨fun _ hop => decode_of_fields hop rfl, fun o s hs => exec_of_rsp hs ((execRsp_vdec o).trans ?_)⟩
  have h0 := toNat_lane_zero_low o.bytes
  have h1 := toNat_append_lane 1 h0
  have h3 := toNat_append_lane 3 (toNat_append_lane 2 h1)
  have h7 := toNat_append_lane 7 (toNat_append_lane 6 (toNat_append_lane 5 (toNat_append_lane 4 h3)))
  split
  case isTrue hnone => exact vdecRsp_short (lt_of_lt_of_le hnone (Tier.one_le_len _))
  case isFalse hsome =>
    split
    case isTrue htag =>
      exact (vdecRsp_of_tag (t := .l1) htag ((toNat_zeros_append 58 _).trans h0)).trans (if_neg hsome)
    case isFalse htag0 =>
      split
      case isTrue htag => exact vdecRsp_of_tag (t := .l2) htag ((toNat_zeros_append 50 _).trans h1)
      case isFalse htag1 =>
        split
        case isTrue htag => exact vdecRsp_of_tag (t := .l4) htag ((toNat_zeros_append 34 _).trans h3)
        case isFalse htag2 =>
          exact vdecRsp_of_tag (t := .l8) (tag_eq_three htag0 htag1 htag2)
            ((toNat_zeros_append 2 _).trans h7)

/-- Settles O28: the verdict by `minLen_eq_iff_ranges`, the length by `lenField_minLen`. -/
theorem vcanonResult : Obligations.VcanonResult := by
  unfold Obligations.VcanonResult
  refine ⟨fun _ hop => decode_of_fields hop rfl, fun o s hs => exec_of_rsp hs ((execRsp_vcanon o).trans ?_)⟩
  have hcanon := (vcanonRsp_canon_iff o).trans (minLen_eq_iff_ranges o.val o.len)
  rw [vcanonRsp_fields, lenField_minLen, Rsp.mk.injEq]
  exact ⟨rfl, Bool.eq_iff_iff.mpr (hcanon.trans decide_eq_true_iff.symm), rfl, rfl, rfl⟩

/-- Settles O29: a length is a tier's, and one that the value fits is no shorter than `MinLen` (`minLen_le_iff`); the
select by `len_minLen_eq_select`. -/
theorem minLenIsShortestAndPrioritySelect : Obligations.MinLenIsShortestAndPrioritySelect := by
  unfold Obligations.MinLenIsShortestAndPrioritySelect
  refine fun v hv => ⟨minLen_fits hv, fun l hl hfit => ?_, len_minLen_eq_select hv⟩
  obtain ⟨t, rfl⟩ := exists_tier_of_len hl
  exact (minLen_le_iff hv t).mpr hfit

/-- Settles O30: the longer value's tier holds the smaller value too (`minLen_le_iff`); the boundary pairs by
evaluation. -/
theorem minLenMonotoneWithBoundaries : Obligations.MinLenMonotoneWithBoundaries :=
  ⟨fun _ _ hle hw => (minLen_le_iff (hle.trans_lt hw) _).mpr (hle.trans_lt (minLen_fits hw)),
    by decide, by decide, by decide, by decide, by decide, by decide, by decide⟩

/-- Settles O33: a decoded value fits the decoded tier (`vdecRsp_ok_fits`), and then each form says that the tier is
`MinLen` of the value. -/
theorem canonicalFormsAgreeOnDecoded : Obligations.CanonicalFormsAgreeOnDecoded := by
  unfold Obligations.CanonicalFormsAgreeOnDecoded
  intro o o' s s' t t' hs hs' hdec hok hlen' hval' hcanon
  rw [exec_s1 hs hdec, execRsp_vdec] at hok hlen' hval' ⊢
  obtain ⟨T, v, hfit, hrsp⟩ := vdecRsp_ok_fits hok
  rw [hrsp] at hlen' hval' ⊢
  have hverdict : (vcanonRsp o').canon = true ↔ v.toNat < 2 ^ 62 ∧ T.lenField = (minLen v).lenField := by
    rw [vcanonRsp_canon_iff, hlen', hval']
  have hmin : (vcanonRsp o').canon = true ↔ minLen v = T := by
    rw [hverdict, Tier.lenField_inj, and_iff_right (lt_domain_of_fits hfit), eq_comm]
  rw [exec_s1 hs' hcanon, execRsp_vcanon]
  simp only [Tier.toNat_lenField]
  refine ⟨hfit, hmin.trans ⟨congrArg Tier.len, Tier.len_injective⟩, ?_, hverdict.trans (minLen_eq_iff_ranges v _)⟩
  rw [hmin, minLen_eq_iff_not_next_smaller hfit]
  exact or_congr_left Tier.lenField_inj.symm
end

section
/-!
PROOFS. The errors (60_exceptions.md R130 to R133): which error each response reports, what an error response holds, and
which of two causes is answered.
-/

namespace Sys2Proof.Machine

/-! ## The response of a presented request -/

/-- Presenting the sample that is on the pins already changes nothing. -/
theorem present_of_head {s : State} {e : EdgeInput} (h : s.inputs.head? = some e) : s.present e = s := by
  rw [State.present, List.cons_head?_tail h]

/-- From the first reset edge on, a step with a valid request puts R67's response in `S[1]`. -/
theorem step_s1 {s t : State} {req : ReqBundle} (hs : s.phase = .ready) (hin : s.inputs.head? = some ⟨false, true, req⟩)
    (h : step s = .next t) : t.s1 = ⟨true, execRsp req⟩ := by
  have hsampled := sampled_of_head hin
  rw [step_next h, edge_of_ready hs (by rw [hsampled]), hsampled, load_of_inValid rfl]

/-! ## Which error a response reports (R130) -/

theorem code_inj {e e' : Err} : e.code = e'.code ↔ e = e' := ⟨code_injective, congrArg Err.code⟩

/-- VENC's error: the range check comes before the capacity check (R133). -/
theorem vencRsp_err (o : Operands) :
    (vencRsp o).err =
      if 2 ^ 62 ≤ o.val.toNat then .range else if sat8 o.len < (minLen o.val).len then .bufShort else .ok := by
  split
  case isTrue hrange => rw [vencRsp_range hrange, raise_err]
  case isFalse hrange =>
    have hv := Nat.lt_of_not_le hrange
    split
    case isTrue hshort => rw [vencRsp_short hv hshort, raise_err]
    case isFalse hcap => exact (vencRsp_err_ok_iff hv).mpr (Nat.le_of_not_lt hcap)

/-- VDEC's error: the tier has at least one byte, so the check for an empty buffer is part of the one for the tier. -/
theorem vdecRsp_err (o : Operands) :
    (vdecRsp o).err = if sat8 o.len < (tagLen (varintTag o)).len then .bufShort else .ok := by
  split
  case isTrue hshort => rw [vdecRsp_short hshort, raise_err]
  case isFalse havail => exact (vdecRsp_err_ok_iff o).mpr (Nat.le_of_not_lt havail)

@[simp] theorem vcanonRsp_err (o : Operands) : (vcanonRsp o).err = .ok := by rw [vcanonRsp_fields]

/-- An operation is VENC, or VDEC, or one that never raises an error. -/
theorem instr_error_cases (i : Instr) :
    (∃ o, i = .venc o) ∨ (∃ o, i = .vdec o) ∨
      ((∀ o, i ≠ .venc o) ∧ (∀ o, i ≠ .vdec o) ∧ (execRsp (encode i)).err = .ok) := by
  cases i with
  | venc o => exact .inl ⟨o, rfl⟩
  | vdec o => exact .inr (.inl ⟨o, rfl⟩)
  | _ => exact .inr (.inr ⟨nofun, nofun, by simp⟩)

/-- BUF_SHORT is VDEC's answer to too few bytes and, in the domain, VENC's to too little capacity. -/
theorem err_bufShort_iff (i : Instr) :
    (execRsp (encode i)).err = .bufShort ↔
      (∃ o, i = .vdec o ∧ sat8 o.len < (tagLen (varintTag o)).len) ∨
      (∃ o, i = .venc o ∧ o.val.toNat < 2 ^ 62 ∧ sat8 o.len < (minLen o.val).len) := by
  rcases instr_error_cases i with ⟨o, rfl⟩ | ⟨o, rfl⟩ | ⟨hvenc, hvdec, hok⟩
  · rw [execRsp_venc, vencRsp_err]
    split_ifs <;> simp <;> omega
  · rw [execRsp_vdec, vdecRsp_err]
    split_ifs <;> simp <;> omega
  · simp [hok, hvenc, hvdec]

/-- RANGE is VENC's answer outside the domain. -/
theorem err_range_iff (i : Instr) : (execRsp (encode i)).err = .range ↔ ∃ o, i = .venc o ∧ 2 ^ 62 ≤ o.val.toNat := by
  rcases instr_error_cases i with ⟨o, rfl⟩ | ⟨o, rfl⟩ | ⟨hvenc, -, hok⟩
  · rw [execRsp_venc, vencRsp_err]
    split_ifs <;> simp <;> omega
  · rw [execRsp_vdec, vdecRsp_err]
    split_ifs <;> simp
  · simp [hok, hvenc]

theorem err_ne_illegalOp (i : Instr) : (execRsp (encode i)).err ≠ .illegalOp := by
  rcases instr_error_cases i with ⟨o, rfl⟩ | ⟨o, rfl⟩ | ⟨-, -, hok⟩
  · rw [execRsp_venc, vencRsp_err]
    split_ifs <;> exact Err.noConfusion
  · rw [execRsp_vdec, vdecRsp_err]
    split_ifs <;> exact Err.noConfusion
  · rw [hok]
    exact Err.noConfusion

/-- ILLEGAL_OP is the answer to the reserved selectors (R132). -/
theorem err_illegalOp_iff (req : ReqBundle) : (execRsp req).err = .illegalOp ↔ reqOp req ∈ reservedOps := by
  refine ⟨fun herr => ?_, fun hres => by rw [execRsp_reserved hres, raise_err]⟩
  rcases decode_cases req with ⟨i, -, hi⟩ | ⟨-, hres⟩
  · rw [← encode_of_instrOfOp hi] at herr
    exact absurd herr (err_ne_illegalOp i)
  · exact hres

/-! ## What an error response holds (R131) -/

theorem pack_raise (e : Err) : (raise e).pack = e.code ++ 0#133 := by cases e <;> rfl

theorem storedBytes_raise (e : Err) : (raise e).storedBytes = [] := rfl

end Sys2Proof.Machine

open Sys2Proof Sys2Proof.Machine

/-! ## Tier 2 -/

/-- Settles O9: the request is on the pins already, so `step_present_reserved` speaks of this step. -/
theorem reservedOpAnswersIllegalOp : Obligations.ReservedOpAnswersIllegalOp := by
  refine ⟨rfl, fun s req hs hin hres => ?_⟩
  have hstep := step_present_reserved hs hres
  rwa [present_of_head hin] at hstep

/-- Settles O35: each code is one error kind's (`code_inj`), and each kind has its causes (`err_bufShort_iff`,
`err_range_iff`, `err_illegalOp_iff`). VDEC's cause of an empty buffer is one of too few bytes, as `2^tag` is
positive. -/
theorem errorCodesExactlyByCause : Obligations.ErrorCodesExactlyByCause := by
  refine ⟨fun i s t hs h => ?_, fun s t req hs hin h => ?_⟩
  · rw [exec_s1 hs h]
    refine ⟨?_, code_inj.trans (err_range_iff i), fun hcode => err_ne_illegalOp i (code_injective hcode)⟩
    refine (code_inj.trans (err_bufShort_iff i)).trans (or_congr_left (exists_congr fun o => and_congr_right fun _ => ?_))
    have hpos := Nat.two_pow_pos (varintTag o).toNat
    rw [len_tagLen]
    exact ⟨.inr, fun hcause => hcause.elim (fun hzero => lt_of_eq_of_lt hzero hpos) id⟩
  · rw [step_s1 hs hin h]
    exact code_inj.trans (err_illegalOp_iff req)

/-- Settles O36: a legal response with an error is `raise` of it (`execRsp_legal`). -/
theorem errorResponseIsOtherwiseZero : Obligations.ErrorResponseIsOtherwiseZero := by
  refine ⟨pack_raise, fun s t req hs hin h hne => ?_⟩
  rw [step_s1 hs hin h] at hne ⊢
  obtain ⟨hraise, -⟩ := execRsp_legal req
  have hr := hraise hne
  exact ⟨hr, (congrArg Rsp.pack hr).trans (pack_raise _), (congrArg Rsp.storedBytes hr).trans (storedBytes_raise _)⟩

/-- Settles O37: a reserved selector leaves nothing else to read, VENC's range check stands before its capacity check
(`vencRsp_range`), and VDEC has one answer to too few bytes (`vdecRsp_short`). -/
theorem errorPriority : Obligations.ErrorPriority := by
  refine ⟨fun s t req hs hin hres h => ?_, fun o s t hs hrange h => ?_, fun o o' s s' t t' hs hs' hlen _ hshort h h' => ?_⟩
  · rw [step_s1 hs hin h, execRsp_reserved hres]
    rfl
  · rw [exec_s1 hs h, execRsp_venc, vencRsp_range hrange]
    rfl
  · have hnone : sat8 o.len < (tagLen (varintTag o)).len := by
      rw [hlen]
      exact Tier.one_le_len _
    have hfew : sat8 o'.len < (tagLen (varintTag o')).len := by rwa [len_tagLen]
    rw [exec_s1 hs h, exec_s1 hs' h', execRsp_vdec, execRsp_vdec, vdecRsp_short hnone, vdecRsp_short hfew]
    exact ⟨rfl, rfl⟩
end

section
/-!
PROOFS. Reset and hazards: what a reset edge leaves, when a request is seen at the outputs, and what `out_valid` depends
on (70_reset_and_hazards.md R161, R163, R166).
-/

namespace Sys2Proof.Machine

/-! ## What stands at the outputs before LAT edges have passed (R166) -/

/-- Over fewer than LAT edges without reset the outputs show only what was in flight: after `k` edges the stage that
stood `k` places before `S[LAT]`. -/
theorem last_iterate_edge_of_lt {s : State} (hs : s.phase = .ready) {k : Nat} (hk : k < s.lat)
    (hr : ∀ e ∈ s.inputs.take k, e.rst = false) : s.stages[s.lat - 1 - k]? = some (State.edge^[k] s).last := by
  have hlast := last_eq_getElem? (State.edge^[k] s)
  rwa [iterate_edge_lat, iterate_edge_stages hs k hr, List.getElem?_take_of_lt (by omega),
    List.getElem?_append_right (by simp; omega), List.length_reverse, List.length_map, List.length_range] at hlast

/-- So two machines with the same stages show the same outputs for fewer than LAT edges, whatever is requested. -/
theorem outputs_iterate_edge_of_lt {s s' : State} (hs : s.phase = .ready) (hs' : s'.phase = .ready)
    (hstages : s.stages = s'.stages) {k : Nat} (hk : k < s.lat) (hr : ∀ e ∈ s.inputs.take k, e.rst = false)
    (hr' : ∀ e ∈ s'.inputs.take k, e.rst = false) : (State.edge^[k] s).outputs = (State.edge^[k] s').outputs := by
  have hlat : s.lat = s'.lat := congrArg List.length hstages
  have h := last_iterate_edge_of_lt hs hk hr
  rw [hstages, hlat, last_iterate_edge_of_lt hs' (hlat ▸ hk) hr'] at h
  rw [State.outputs, State.outputs, Option.some.inj h]

/-- A sample without reset in front of `n` more such samples: none of the first `k ≤ n` samples is a reset. -/
theorem not_rst_of_take_cons {e₀ : EdgeInput} {rest : List EdgeInput} {n k : Nat} (h₀ : e₀.rst = false)
    (hr : ∀ e ∈ rest.take n, e.rst = false) (hk : k ≤ n) : ∀ e ∈ (e₀ :: rest).take k, e.rst = false := by
  intro e he
  have hmem : e ∈ e₀ :: rest.take n := (List.take_prefix_take_left (hk.trans (Nat.le_succ n))).subset he
  rcases List.mem_cons.mp hmem with rfl | hrest
  · exact h₀
  · exact hr e hrest

theorem dependentInTime_zero_iff (lat d : Nat) : dependentInTime lat 0 d = true ↔ lat ≤ d := by
  rw [dependentInTime, decide_eq_true_iff, Nat.zero_add]

/-! ## Valid flags and strobes (R163) -/

/-- The valid flags of the stages. -/
def State.flags (s : State) : List Bool := s.stages.map Stage.v

/-- The control inputs `rst` and `in_valid` of a sample, without the request. -/
def EdgeInput.strobes (e : EdgeInput) : Bool × Bool := (e.rst, e.inValid)

theorem flags_length (s : State) : s.flags.length = s.lat := List.length_map _

theorem load_v (e : EdgeInput) : e.load.v = e.inValid := by
  cases h : e.inValid with
  | true => rw [load_of_inValid h]
  | false => rw [load_of_not_inValid h]; rfl

/-- The flags after an edge are a function of the flags and the sample's strobes (10_state.md R24). -/
theorem edge_flags {s : State} (hs : s.phase = .ready) :
    s.edge.flags =
      if s.sampled.strobes.1 then List.replicate s.flags.length false
      else (s.sampled.strobes.2 :: s.flags).take s.flags.length := by
  rw [flags_length, State.flags, edge_stages hs, EdgeInput.strobes]
  split
  · rw [List.map_replicate]
    rfl
  · rw [List.map_take, List.map_cons, load_v]
    rfl

theorem strobes_sampled (s : State) :
    s.sampled.strobes = (s.inputs.map EdgeInput.strobes).head?.getD EdgeInput.idle.strobes := by
  rw [State.sampled, List.head?_map, Option.getD_map]

/-- Two ready machines with the same flags in flight and the same strobes ahead; requests and responses are free. -/
structure State.SameTiming (s s' : State) : Prop where
  ready : s.phase = .ready
  ready' : s'.phase = .ready
  flags : s.flags = s'.flags
  strobes : s.inputs.map EdgeInput.strobes = s'.inputs.map EdgeInput.strobes

theorem State.SameTiming.edge {s s' : State} (h : s.SameTiming s') : s.edge.SameTiming s'.edge where
  ready := edge_ready h.ready
  ready' := edge_ready h.ready'
  flags := by rw [edge_flags h.ready, edge_flags h.ready', strobes_sampled, strobes_sampled, h.flags, h.strobes]
  strobes := by rw [edge_inputs, edge_inputs, List.map_tail, List.map_tail, h.strobes]

theorem State.SameTiming.iterate_edge {s s' : State} (h : s.SameTiming s') (k : Nat) :
    (State.edge^[k] s).SameTiming (State.edge^[k] s') := by
  induction k with
  | zero => exact h
  | succ k ih =>
    rw [Function.iterate_succ_apply', Function.iterate_succ_apply']
    exact ih.edge

/-- `out_valid` is the last of the flags (10_state.md R25). -/
theorem flags_getLast? (s : State) : s.flags.getLast? = some s.outputs.outValid := by
  rw [State.flags, List.getLast?_map, List.getLast?_eq_some_getLast (stages_ne_nil s), Option.map_some,
    ← last_eq_getLast, outputs_outValid]

theorem State.SameTiming.outValid {s s' : State} (h : s.SameTiming s') : s.outputs.outValid = s'.outputs.outValid := by
  apply Option.some.inj
  rw [← flags_getLast?, ← flags_getLast?, h.flags]

end Sys2Proof.Machine

open Sys2Proof Sys2Proof.Machine

/-! ## Tier 3 -/

/-- Settles O50: before LAT edges the outputs come from what was in flight (`outputs_iterate_edge_of_lt`), and after
exactly LAT edges `S[LAT]` holds the request's load (`last_iterate_edge`). -/
theorem dependentRequestEarliestEdge : Obligations.DependentRequestEarliestEdge := by
  unfold Obligations.DependentRequestEarliestEdge
  intro s req req' rest d hs hin hr
  refine ⟨fun hearly c hc => ⟨_, _, run_eq_iterate c _, run_eq_iterate c _, ?_⟩, fun hlate =>
    ⟨s.lat, _, (dependentInTime_zero_iff _ _).mp hlate, run_eq_iterate _ _, ?_⟩⟩
  · have hd : d < s.lat := by
      rwa [← Bool.not_eq_true, dependentInTime_zero_iff, Nat.not_le] at hearly
    have hclt : c < s.lat := lt_of_le_of_lt hc hd
    refine outputs_iterate_edge_of_lt (s' := s.present ⟨false, true, req'⟩) hs hs rfl hclt ?_ ?_
    · rw [hin]
      exact not_rst_of_take_cons rfl hr hclt.le
    · rw [present_inputs, hin]
      exact not_rst_of_take_cons rfl hr hclt.le
  · rw [last_iterate_edge hs le_rfl (hin ▸ not_rst_of_take_cons rfl hr le_rfl), Nat.sub_self, hin,
      List.getD_cons_zero, load_of_inValid rfl]

/-- Settles O51: an edge keeps two machines in the same timing (`SameTiming.edge`), and `out_valid` is the last flag. -/
theorem timingIndependentOfData : Obligations.TimingIndependentOfData := by
  unfold Obligations.TimingIndependentOfData
  intro s s' k hs hs' hflags hstrobes
  have h : s.SameTiming s' := ⟨hs, hs', hflags, hstrobes⟩
  exact ⟨_, _, run_eq_iterate k s, run_eq_iterate k s', (h.iterate_edge k).outValid⟩

/-! ## Tier 2 -/

/-- Settles O12: the edge with `rst` gives the reset state with the rest of the schedule (`edge_eq_resetWith`), which
depends on the latency and that schedule alone. -/
theorem resetEdgeDiscardsEverything : Obligations.ResetEdgeDiscardsEverything := by
  unfold Obligations.ResetEdgeDiscardsEverything
  refine ⟨fun s e he hr => ?_, fun s s' e e' he he' hr hr' hlat hin k => ?_⟩
  · obtain rfl := sampled_of_head he
    exact ⟨s.edge, step_eq_edge s, edge_stages_rst hr, edge_inputs s, by rw [edge_phase, if_pos hr]⟩
  · obtain rfl := sampled_of_head he
    obtain rfl := sampled_of_head he'
    rw [run_eq_iterate, run_eq_iterate, Function.iterate_succ_apply, Function.iterate_succ_apply, edge_eq_resetWith hr,
      edge_eq_resetWith hr', hlat, hin]
end
